-- ==== Sys2Proof/Word.lean ====
section
/-! DEFINITION. The bit vectors of the AES engine core: bytes and host addresses. -/

namespace Sys2Proof

/-- A byte, 8 bits numbered 7 down to 0 (R8). -/
abbrev Byte := BitVec 8

/-- An address of the host port: 17 bits, each value naming one byte (R30). -/
abbrev Addr := BitVec 17

end Sys2Proof
end

