-- ==== Sys2Proof/Syntax.lean ====
section
/-! DEFINITION. The ten commands of the opcode table (R52). -/

namespace Sys2Proof

/-- A command: "one byte written to `CMD`; the hardware's instruction" (R52, glossary). The mode flag of the six
mode-carrying primitives is implied by the constructor (R51). -/
inductive Instr
  /-- KEXP: expand the key held in `K` into the round key memory (R84). -/
  | kexp
  /-- ARK r: XOR round key `r` into every block of the buffer; `r` is a natural number 0..15 (R51, R97). -/
  | ark (r : Nat)
  /-- SUBBYTES: forward byte substitution (R99). -/
  | subbytes
  /-- INVSUBBYTES: inverse byte substitution (R100). -/
  | invsubbytes
  /-- SHIFTROWS: forward row shift (R102). -/
  | shiftrows
  /-- INVSHIFTROWS: inverse row shift (R103). -/
  | invshiftrows
  /-- MIXCOLUMNS: forward column mix (R105). -/
  | mixcolumns
  /-- INVMIXCOLUMNS: inverse column mix (R106). -/
  | invmixcolumns
  /-- ENC: pad and encrypt the buffer in place (R124). -/
  | enc
  /-- DEC: pad and decrypt the buffer in place (R125). -/
  | dec
  deriving DecidableEq, Repr

end Sys2Proof
end

