-- ==== Sys2Proof/WellFormed.lean ====
section
/-! DEFINITION. Which commands have an encoding. -/

namespace Sys2Proof

/-- A command is well formed when its operand fits the 4-bit field `arg`: `r = arg[3:0]` is 0..15, and "All sixteen
values are legal encodings" (R51); the other nine take no operand. -/
def Instr.wellFormed : Instr → Bool
  | .kexp => true
  | .ark r => decide (r ≤ 15)
  | .subbytes => true
  | .invsubbytes => true
  | .shiftrows => true
  | .invshiftrows => true
  | .mixcolumns => true
  | .invmixcolumns => true
  | .enc => true
  | .dec => true

end Sys2Proof
end

