-- ==== Sys2Proof/Decode.lean ====
section
/-! DEFINITION. Command bytes: the decoder (R54), total on all 256 bytes, and the encoder (R50, R52). -/

namespace Sys2Proof

/-- Why a byte is no command. -/
inductive Reject
  /-- The byte is reserved (R53): a write of it to `CMD` raises E_ILLCMD (R143). -/
  | reserved (c : Byte)
  deriving DecidableEq, Repr

/-- The field `op = c[7:4]` (R50). -/
def opField (c : Byte) : BitVec 4 := c.extractLsb' 4 4

/-- The field `arg = c[3:0]` (R50). -/
def argField (c : Byte) : BitVec 4 := c.extractLsb' 0 4

/-- Decoding, in the order of R54; every byte not named there is rejected as reserved (R53). -/
def decode (c : Byte) : Except Reject Instr :=
  let op := opField c
  let arg := argField c
  if op = 1 ∧ arg = 0 then .ok .kexp
  else if op = 2 then .ok (.ark arg.toNat)
  else if op = 3 ∧ arg = 0 then .ok .subbytes
  else if op = 3 ∧ arg = 1 then .ok .invsubbytes
  else if op = 4 ∧ arg = 0 then .ok .shiftrows
  else if op = 4 ∧ arg = 1 then .ok .invshiftrows
  else if op = 5 ∧ arg = 0 then .ok .mixcolumns
  else if op = 5 ∧ arg = 1 then .ok .invmixcolumns
  else if op = 6 ∧ arg = 0 then .ok .enc
  else if op = 7 ∧ arg = 0 then .ok .dec
  else .error (.reserved c)

/-- "A command is the byte `{op, arg}`" (R50), `op` on the most significant side (R8). -/
def commandByte (op arg : BitVec 4) : Byte := op ++ arg

/-- The byte of a well-formed command, from the `op arg` column of the table of R52. -/
def encode : Instr → Byte
  | .kexp => commandByte 0b0001 0b0000
  | .ark r => commandByte 0b0010 (BitVec.ofNat 4 r)
  | .subbytes => commandByte 0b0011 0b0000
  | .invsubbytes => commandByte 0b0011 0b0001
  | .shiftrows => commandByte 0b0100 0b0000
  | .invshiftrows => commandByte 0b0100 0b0001
  | .mixcolumns => commandByte 0b0101 0b0000
  | .invmixcolumns => commandByte 0b0101 0b0001
  | .enc => commandByte 0b0110 0b0000
  | .dec => commandByte 0b0111 0b0000

/-- The command byte that an opcode-table word of `nbits` bits stands for: there is one length, 8 bits, and no second
byte (R50). -/
def tableByte (nbits w : Nat) : Byte := BitVec.ofNat 8 (w % 2 ^ nbits)

/-- What the decoder reads from a word numbered as spec/opcode_table.json numbers it. -/
def decodeTableWord (nbits w : Nat) : Option Instr :=
  match decode (tableByte nbits w) with
  | .ok i => some i
  | .error _ => none

end Sys2Proof
end

