-- ==== Sys2Proof/Config.lean ====
section
/-! DEFINITION. What the spec leaves to the implementation: the open parameter NBLK, and the free values
(constants with no body, of which nothing can be proved). -/

namespace Sys2Proof

/-- The one open parameter of the spec (R6, D5). It is plain data, held in `State.cfg` and changed by no step,
so that a statement about every state is a statement about every capacity (log entry 3). -/
structure Config where
  /-- NBLK: the capacity of the data buffer in 16-byte blocks. -/
  nblk : Nat
  deriving DecidableEq, Repr

/-- "a natural number with `1 <= NBLK <= 4095`" (R6). -/
abbrev Config.legal (c : Config) : Prop := 1 ≤ c.nblk ∧ c.nblk ≤ 4095

/-- FREE VALUE (R24, R165, U1; log entry 5): the byte that the array location of host address `addr` (in K, RK or D)
holds after the `n`-th Reset transaction, where `held` is every byte that the engine held before it, with its address.
An implementation that keeps the old contents, clears them, or leaves other values is an instance. -/
opaque Config.resetByte (n : Nat) (held : List (Nat × Byte)) (addr : Nat) : Byte

/-- FREE VALUE (R73, U6; log entry 9): `RCON` outside 1..10, which the spec gives no value and no rule reads. -/
opaque Config.rconOutside (j : Nat) : Byte

end Sys2Proof
end

