-- ==== Sys2Proof/Machine/GfTables.lean ====
section
/-! DEFINITION. Galois field arithmetic and the constant tables (R65-R74). -/

namespace Sys2Proof.Machine

/-- Multiplication by `x` in the field of the polynomial 0x11B (R66). -/
def xtime (a : Byte) : Byte := if a.getLsbD 7 then (a <<< 1) ^^^ 0x1B else a <<< 1

/-- The loop of `gmul` (R67): `n` iterations from bit `i` of `b` on, with `p` the sum so far. -/
def gmulLoop : Nat → Nat → Byte → Byte → Byte → Byte
  | 0, _, _, _, p => p
  | n + 1, i, a, b, p => gmulLoop n (i + 1) (xtime a) b (if b.getLsbD i then p ^^^ a else p)

/-- The product of two bytes in the field, "shift-and-reduce" (R67). -/
def gmul (a b : Byte) : Byte := gmulLoop 8 0 a b 0x00

/-- Byte `c` of a table row written as one number of 16 bytes, byte 0 first (the tables of R69 and R70). -/
def rowByte (row c : Nat) : Byte := BitVec.ofNat 8 (row >>> (8 * (15 - c)))

/-- The entry for `x = 0xRC`: row `R`, column `C` (R69). -/
def tableEntry (rows : List Nat) (x : Byte) : Byte := rowByte (rows.getD (x.toNat / 16) 0) (x.toNat % 16)

/-- The rows 0x to Fx of `SBOX` (R69). -/
def sboxRows : List Nat :=
  [
   0x637c777bf26b6fc53001672bfed7ab76,
   0xca82c97dfa5947f0add4a2af9ca472c0,
   0xb7fd9326363ff7cc34a5e5f171d83115,
   0x04c723c31896059a071280e2eb27b275,
   0x09832c1a1b6e5aa0523bd6b329e32f84,
   0x53d100ed20fcb15b6acbbe394a4c58cf,
   0xd0efaafb434d338545f9027f503c9fa8,
   0x51a3408f929d38f5bcb6da2110fff3d2] ++ [
   0xcd0c13ec5f974417c4a77e3d645d1973,
   0x60814fdc222a908846eeb814de5e0bdb,
   0xe0323a0a4906245cc2d3ac629195e479,
   0xe7c8376d8dd54ea96c56f4ea657aae08,
   0xba78252e1ca6b4c6e8dd741f4bbd8b8a,
   0x703eb5664803f60e613557b986c11d9e,
   0xe1f8981169d98e949b1e87e9ce5528df,
   0x8ca1890dbfe6426841992d0fb054bb16]

/-- The rows 0x to Fx of `INV_SBOX` (R70). -/
def invSboxRows : List Nat :=
  [
   0x52096ad53036a538bf40a39e81f3d7fb,
   0x7ce339829b2fff87348e4344c4dee9cb,
   0x547b9432a6c2233dee4c950b42fac34e,
   0x082ea16628d924b2765ba2496d8bd125,
   0x72f8f66486689816d4a45ccc5d65b692,
   0x6c704850fdedb9da5e154657a78d9d84,
   0x90d8ab008cbcd30af7e45805b8b34506,
   0xd02c1e8fca3f0f02c1afbd0301138a6b] ++ [
   0x3a9111414f67dcea97f2cfcef0b4e673,
   0x96ac7422e7ad3585e2f937e81c75df6e,
   0x47f11a711d29c5896fb7620eaa18be1b,
   0xfc563e4bc6d279209adbc0fe78cd5af4,
   0x1fdda8338807c731b11210592780ec5f,
   0x60517fa919b54a0d2de57a9f93c99cef,
   0xa0e03b4dae2af5b0c8ebbb3c83539961,
   0x172b047eba77d626e169146355210c7d]

/-- The forward substitution table `SBOX` (R69). -/
def sbox (x : Byte) : Byte := tableEntry sboxRows x

/-- The inverse substitution table `INV_SBOX` (R70). -/
def invSbox (x : Byte) : Byte := tableEntry invSboxRows x

/-- `RCON[1..10]` (R73). -/
def rconTable : List Byte := [0x01, 0x02, 0x04, 0x08, 0x10, 0x20, 0x40, 0x80, 0x1b, 0x36]

/-- The round constant `RCON[j]`, a function on 1..10 (R73); elsewhere a free value that no rule reads (log entry 9). -/
def rcon (j : Nat) : Byte :=
  if 1 ≤ j ∧ j ≤ 10 then rconTable.getD (j - 1) 0 else Config.rconOutside j

/-- `a ^ b` on two byte sequences of equal length, element by element (R8). -/
def xorBytes (a b : List Byte) : List Byte := List.zipWith (· ^^^ ·) a b

end Sys2Proof.Machine
end

