-- ==== Sys2Proof/Machine/Memory.lean ====
section
/-! DEFINITION. Byte memory: the form in which the arrays K, D and RK are held, and its accesses. -/

namespace Sys2Proof.Machine

/-- A byte memory: address and byte pairs, addresses strictly rising. A byte that exists is listed, whatever its value
(after reset each holds "some definite value", R24); an address that is not listed has no value (log entry 6). -/
abbrev Memory := List Host.Cell

/-- The canonical form: the addresses are strictly rising. -/
abbrev Memory.wf (m : Memory) : Prop := m.Pairwise (fun c d => c.1 < d.1)

/-- The memory lists exactly the `n` addresses from `base` on, in order. It implies the canonical form. -/
abbrev Memory.spans (m : Memory) (base n : Nat) : Prop := m.map Prod.fst = List.range' base n

/-- A memory of the `n` addresses from `base` on, with the byte `f a` at address `a`. -/
def Memory.fill (base n : Nat) (f : Nat → Byte) : Memory := (List.range' base n).map fun a => (a, f a)

/-- The byte at an address; 0x00 where the memory lists none (log entry 15). -/
def Memory.read (m : Memory) (a : Nat) : Byte := (m.lookup a).getD 0

/-- Write the byte at one address; an address that is not listed stays unlisted. -/
def Memory.write (m : Memory) (a : Nat) (v : Byte) : Memory := m.map fun c => if c.1 = a then (c.1, v) else c

/-- The `n` bytes from address `base` on, lowest address first. -/
def Memory.load (m : Memory) (base n : Nat) : List Byte := (List.range n).map fun i => m.read (base + i)

/-- Write the bytes of `bs` from address `base` on, the first at the lowest address. -/
def Memory.store (m : Memory) (base : Nat) (bs : List Byte) : Memory :=
  m.map fun c => if base ≤ c.1 then (c.1, bs.getD (c.1 - base) c.2) else c

/-- The address of `K[0]` (R33). -/
abbrev kBase : Nat := 0x00000

/-- The number of bytes of `K` (R11). -/
abbrev kBytes : Nat := 32

/-- The address of `RK[0]` (R33). -/
abbrev rkBase : Nat := 0x00100

/-- The number of bytes of `RK` (R15). -/
abbrev rkBytes : Nat := 240

/-- The address of `D[0]` (R33). -/
abbrev dBase : Nat := 0x10000

end Sys2Proof.Machine
end

