-- ==== Sys2Proof/Machine/State.lean ====
section
/-! DEFINITION. The state of the engine (R10), the host's pending transactions, and the state after reset (R24). -/

namespace Sys2Proof.Machine

/-- The result codes of `RES` (R141). "A model may make `RES` a six-valued type" (U5): 6 and 7 never occur. -/
inductive ResCode
  /-- 0: the command completed. -/
  | ok
  /-- 1, recoverable: `KLEN` not in 16, 24, 32 (R142). -/
  | eKeysize
  /-- 2, recoverable: a reserved command byte (R143). -/
  | eIllcmd
  /-- 3, recoverable: `LEN > DBUF_BYTES` (R144). -/
  | eLen
  /-- 4, fatal: a primitive command with `LEN % 16 != 0` (R145). -/
  | fAlign
  /-- 5, fatal: ARK with no schedule or a round index beyond it (R146). -/
  | fRound
  deriving DecidableEq, Repr

/-- The host's transactions (R30); the access width is one byte (R35). -/
inductive Txn
  /-- `MemRead(addr, 1)` (R31). -/
  | memRead (addr : Addr)
  /-- `MemWrite(addr, 1, v)` (R32). -/
  | memWrite (addr : Addr) (v : Byte)
  /-- `Reset` (R165). -/
  | reset
  deriving DecidableEq, Repr

/-- Why the machine would stop with a fault. There is no such reason: every error of the spec has an effect it gives
(a code in `RES`, and `HALT` if fatal, R147), so each is a next state (log entry 7). Safe. -/
inductive Fault
  deriving DecidableEq, Repr

/-- Why an instruction would have no meaning. -/
inductive Refusal
  /-- Raised only by an arm of `exec` for an instruction without a meaning; no arm raises it. Safe. -/
  | notModelled (mnemonic : String)
  deriving DecidableEq, Repr

/-- "The complete architectural state of one engine is the tuple `(K, KLEN, LEN, D, RK, SRND, RES, HALT)`" (R10). The
last four fields are the model's own: the parameter, the host's side of the port, and a counter for free values. -/
structure State where
  /-- The key register: `K[i]` at address `0x00000 + i`, 32 bytes (R11). -/
  K : Memory
  /-- The key length register, in bytes (R12). -/
  KLEN : Byte
  /-- The data length register: the number of valid bytes in the data buffer (R13). -/
  LEN : BitVec 16
  /-- The data buffer: `D[i]` at address `0x10000 + i`, `16 × NBLK` bytes (R14). -/
  D : Memory
  /-- The round key memory: `RK[i]` at address `0x00100 + i`, 240 bytes (R15). -/
  RK : Memory
  /-- The schedule-rounds register: 0, or the rounds of the schedule in `RK` (R16). -/
  SRND : Byte
  /-- `STATUS[2:0]`: the result code of the most recent command (R17). -/
  RES : ResCode
  /-- `STATUS[7]`: set by a fatal assertion, sticky until reset (R17). -/
  HALT : Bool
  /-- The open parameter NBLK (R6): configuration, not state of the spec's (R22); no step changes it (log entry 3). -/
  cfg : Config
  /-- The host's transactions not yet performed, oldest first (R39; log entry 1). -/
  pending : List Txn
  /-- The bytes that MemRead has returned to the host, oldest first (R31; log entry 2). -/
  returned : List Byte
  /-- How many Reset transactions there have been: the index of their free values (R24; log entry 5). -/
  resets : Nat
  deriving DecidableEq, Repr

/-- The state after reset, for a capacity and a filling of the three arrays (R24): "A model quantifies over all byte
values of `K`, `RK` and `D` at reset". -/
def State.resetWith (cfg : Config) (f : Nat → Byte) : State where
  K := Memory.fill kBase kBytes f
  KLEN := 0
  LEN := 0
  D := Memory.fill dBase (16 * cfg.nblk) f
  RK := Memory.fill rkBase rkBytes f
  SRND := 0
  RES := .ok
  HALT := false
  cfg := cfg
  pending := []
  returned := []
  resets := 0

/-- The machine right after reset: the five reset values of R24; DESIGN CHOICE zero for the bytes of `K`, `RK` and `D`
(log entry 4) and DESIGN CHOICE `NBLK = 4` (log entry 3). -/
def State.reset : State := State.resetWith { nblk := 4 } (fun _ => 0)

end Sys2Proof.Machine
end

