-- ==== Sys2Proof/Machine/Operands.lean ====
section
/-! DEFINITION. What the commands read: the key operand, the data operand, round keys, and the arithmetic of lengths. -/

namespace Sys2Proof.Machine

/-- The mode flag `m` of the mode-carrying primitives: `Enc` (encoding bit 0) or `Dec` (encoding bit 1) (R8, R51). -/
inductive Mode
  | enc
  | dec
  deriving DecidableEq, Repr

/-- `DBUF_BYTES = 16 × NBLK` (R6). -/
def State.dbufBytes (s : State) : Nat := 16 * s.cfg.nblk

/-- `ceil16(n) = 16 × ((n + 15) / 16)`, the least multiple of 16 that is `>= n` (R8). -/
def ceil16 (n : Nat) : Nat := 16 * ((n + 15) / 16)

/-- "The legal values are 16, 24 and 32" (R12). -/
def keyLegal (klen : Byte) : Bool := klen == 16 || klen == 24 || klen == 32

/-- The key operand: `K[0..KLEN)` (R11). -/
def key (s : State) : List Byte := s.K.load kBase s.KLEN.toNat

/-- The round count: `Nr = KLEN / 4 + 6` (R5, R12). -/
def rounds (s : State) : Nat := s.KLEN.toNat / 4 + 6

/-- The schedule length in bytes: `16 × (rounds + 1)` (R5). -/
def scheduleBytes (nr : Nat) : Nat := 16 * (nr + 1)

/-- The data operand: `D[0..n)` (R14). -/
def data (s : State) (n : Nat) : List Byte := s.D.load dBase n

/-- Round key `r` of the schedule held: `RK[16r..16r+16)` (R15). -/
def roundKey (s : State) (r : Nat) : List Byte := s.RK.load (rkBase + 16 * r) 16

/-- `X[a..a+n)` of a byte sequence (R8). -/
def slice (X : List Byte) (a n : Nat) : List Byte := (X.drop a).take n

end Sys2Proof.Machine
end

