-- ==== Sys2Proof/Machine/Flags.lean ====
section
/-! DEFINITION. STATUS: the result codes, their classes, the register's value, and the checks that choose a code. -/

namespace Sys2Proof.Machine

/-- The number of a result code, `STATUS[2:0]` (R141). -/
def ResCode.number : ResCode → BitVec 3
  | .ok => 0
  | .eKeysize => 1
  | .eIllcmd => 2
  | .eLen => 3
  | .fAlign => 4
  | .fRound => 5

/-- The fatal class: F_ALIGN and F_ROUND (R140, R141). -/
def ResCode.fatal : ResCode → Bool
  | .ok => false
  | .eKeysize => false
  | .eIllcmd => false
  | .eLen => false
  | .fAlign => true
  | .fRound => true

/-- `STATUS = {HALT, 0000, RES}` (R17). -/
def status (s : State) : Byte := BitVec.ofBool s.HALT ++ (0 : BitVec 4) ++ s.RES.number

/-- E_KEYSIZE when `KLEN` is not 16, 24 or 32 (R142). -/
def keyCheck (s : State) : Option ResCode := if keyLegal s.KLEN then none else some .eKeysize

/-- E_LEN when `LEN > DBUF_BYTES` (R144). -/
def lenCheck (s : State) : Option ResCode := if s.LEN.toNat > s.dbufBytes then some .eLen else none

/-- F_ALIGN when `LEN % 16 != 0` (R145). -/
def alignCheck (s : State) : Option ResCode := if s.LEN.toNat % 16 ≠ 0 then some .fAlign else none

/-- F_ROUND when `SRND = 0` or `r > SRND` (R146). -/
def roundCheck (r : Nat) (s : State) : Option ResCode :=
  if s.SRND = 0 ∨ r > s.SRND.toNat then some .fRound else none

/-- "One command reports one code, the first that applies" in the order the checks are made (R148). -/
def firstCause (checks : List (State → Option ResCode)) (s : State) : Option ResCode :=
  checks.findSome? fun c => c s

/-- The checks of the seven primitive commands: E_LEN, then F_ALIGN (R107). -/
def primChecks : List (State → Option ResCode) := [lenCheck, alignCheck]

/-- The checks of ARK: E_LEN, then F_ALIGN, then F_ROUND (R97). -/
def arkChecks (r : Nat) : List (State → Option ResCode) := primChecks ++ [roundCheck r]

/-- The check of KEXP: E_KEYSIZE (R84). -/
def kexpChecks : List (State → Option ResCode) := [keyCheck]

/-- The checks of ENC and DEC: E_KEYSIZE, then E_LEN (R124, R125). -/
def pipelineChecks : List (State → Option ResCode) := [keyCheck, lenCheck]

end Sys2Proof.Machine
end

