-- ==== Sys2Proof/Machine/Ops.lean ====
section
/-! DEFINITION. The shared operations: raising a code, the frame of every command, the Reset event, and the host's byte
accesses. -/

namespace Sys2Proof.Machine

/-- `raise <Code>`, the "trap entry" of R147: `RES` gets the code, `HALT` is set if the code is fatal, and nothing else
changes. There is no handler, no saved state and no return command (R147, R149). -/
def raise (e : ResCode) (s : State) : State := { s with RES := e, HALT := s.HALT || e.fatal }

/-- `RES <- 0`, the end of every command that completes (R54, R141). -/
def succeed (s : State) : State := { s with RES := .ok }

/-- The frame of every command: nothing while `HALT = 1` (R54, R150); else the command's checks, all of them before its
first write (R147), and then its effect. -/
def command (checks : List (State → Option ResCode)) (effect : State → State) (s : State) :
    Host.Outcome State Fault Refusal :=
  if s.HALT then .next s
  else match firstCause checks s with
    | some e => .next (raise e s)
    | none => .next (succeed (effect s))

/-- Every byte the engine holds, with its host address (R33): the whole tuple of R10, as the host can read it. -/
def heldBytes (s : State) : List (Nat × Byte) :=
  s.K ++ [(0x00020, s.KLEN), (0x00022, s.LEN.extractLsb' 0 8), (0x00023, s.LEN.extractLsb' 8 8), (0x00025, status s),
    (0x00026, s.SRND)] ++ s.RK ++ s.D

/-- The Reset event (R165) with the filling `f` of the three arrays, by host address: five fields get their reset
values. -/
def resetFilled (f : Nat → Byte) (s : State) : State :=
  { s with
    K := Memory.fill kBase kBytes f
    KLEN := 0
    LEN := 0
    D := Memory.fill dBase s.dbufBytes f
    RK := Memory.fill rkBase rkBytes f
    SRND := 0
    RES := .ok
    HALT := false
    resets := s.resets + 1 }

/-- The Reset event (R165), the only way to clear `HALT`. `K`, `RK` and `D` are unspecified: each byte is a free value
of this reset and of all that the engine held before it, so that it may be the old byte ("keep their old contents"), and
key and data may stay readable (R175). DESIGN CHOICE: it depends on nothing else (log entry 5). -/
def resetEvent (s : State) : State := resetFilled (Config.resetByte s.resets (heldBytes s)) s

/-- `LEN <- {LEN[15:8], v}` (R32). -/
def setLenLo (len : BitVec 16) (v : Byte) : BitVec 16 := len.extractLsb' 8 8 ++ v

/-- `LEN <- {v, LEN[7:0]}` (R32). -/
def setLenHi (len : BitVec 16) (v : Byte) : BitVec 16 := v ++ len.extractLsb' 0 8

/-- The byte `MemRead(a, 1)` returns, in the order of R31; it works the same whether `HALT` is 0 or 1. -/
def memRead (s : State) (a : Nat) : Byte :=
  if a ≤ 0x0001F then s.K.read a
  else if a = 0x00020 then s.KLEN
  else if a = 0x00022 then s.LEN.extractLsb' 0 8
  else if a = 0x00023 then s.LEN.extractLsb' 8 8
  else if a = 0x00024 then 0x00
  else if a = 0x00025 then status s
  else if a = 0x00026 then s.SRND
  else if 0x00100 ≤ a ∧ a ≤ 0x001EF then s.RK.read a
  else if 0x10000 ≤ a ∧ a < 0x10000 + s.dbufBytes then s.D.read a
  else 0x00

/-- The address of the command port (R18). -/
abbrev cmdAddr : Nat := 0x00024

/-- `MemWrite(a, 1, v)` at every address but `CMD`, while `HALT = 0`, in the order of R32: read-only and unmapped
locations ignore it (R34). -/
def hostStore (a : Nat) (v : Byte) (s : State) : State :=
  if a ≤ 0x0001F then { s with K := s.K.write a v }
  else if a = 0x00020 then { s with KLEN := v }
  else if a = 0x00022 then { s with LEN := setLenLo s.LEN v }
  else if a = 0x00023 then { s with LEN := setLenHi s.LEN v }
  else if 0x10000 ≤ a ∧ a < 0x10000 + s.dbufBytes then { s with D := s.D.write a v }
  else s

end Sys2Proof.Machine
end

