-- ==== Sys2Proof/Machine/KeyExpansion.lean ====
section
/-! DEFINITION. Key expansion (R80-R83) and the command KEXP (R84). -/

namespace Sys2Proof.Machine

/-- `RotWord([w0, w1, w2, w3]) = [w1, w2, w3, w0]` (R80). -/
def rotWord (w : List Byte) : List Byte := w.drop 1 ++ w.take 1

/-- `SubWord`: `SBOX` on each byte of the word, never `INV_SBOX` (R81). -/
def subWord (w : List Byte) : List Byte := w.map sbox

/-- A round constant meets byte 0 of the word only: the word XORed is `[RCON[j], 0x00, 0x00, 0x00]` (R74). -/
def xorRcon (w : List Byte) (j : Nat) : List Byte := xorBytes w [rcon j, 0x00, 0x00, 0x00]

/-- `temp` as the loop of R82 changes it for the word `i`, for a key of `nk` words. -/
def scheduleTemp (nk i : Nat) (temp : List Byte) : List Byte :=
  if i % nk = 0 then xorRcon (subWord (rotWord temp)) (i / nk)
  else if nk > 6 ∧ i % nk = 4 then subWord temp
  else temp

/-- One turn of the loop of R82: `w[i] = w[i-Nk] ^ temp`, with `temp` made from `w[i-1]`. -/
def addWord (nk : Nat) (w : List (List Byte)) (i : Nat) : List (List Byte) :=
  w ++ [xorBytes (w.getD (i - nk) []) (scheduleTemp nk i (w.getD (i - 1) []))]

/-- "Split key into 4-byte words; this becomes the first `Nk` words of the schedule" (R82). -/
def keyWords (nk : Nat) (key : List Byte) : List (List Byte) :=
  (List.range nk).map fun i => slice key (4 * i) 4

/-- The words of the schedule of a key of `nk` words: `i` runs over `Nk..4×(Nr+1))` (R82). -/
def scheduleWords (nk : Nat) (key : List Byte) : List (List Byte) :=
  (List.range' nk (4 * (nk + 6 + 1) - nk)).foldl (addWord nk) (keyWords nk key)

/-- `Expand(key)`: "the word sequence flattened to bytes" (R82). -/
def expand (key : List Byte) : List Byte := (scheduleWords (key.length / 4) key).flatten

/-- `RK[0..16×(Nr+1)) <- Expand(K[0..KLEN))` and `SRND <- Nr` (R84, R124, R125). -/
def expandKey (s : State) : State :=
  { s with RK := s.RK.store rkBase (expand (key s)), SRND := BitVec.ofNat 8 (rounds s) }

/-- KEXP (R84). -/
def execKexp (s : State) : Host.Outcome State Fault Refusal := command kexpChecks expandKey s

end Sys2Proof.Machine
end

