-- ==== Sys2Proof/Machine/RoundPrimitives.lean ====
section
/-! DEFINITION. The round transform primitives (R95-R104) and their seven commands (R97-R106). A block is a sequence of
16 bytes in column-major order: byte `i` stands at row `i % 4`, column `i / 4` (R95). -/

namespace Sys2Proof.Machine

/-- `s[i]` of a block (R8). -/
def blockByte (s : List Byte) (i : Nat) : Byte := s.getD i 0

/-- `MapBlocks` over the first `n` blocks of a buffer (R95): block `b` of the result is `f` of block `b`. -/
def mapBlocksN (f : List Byte → List Byte) : Nat → List Byte → List Byte
  | 0, _ => []
  | n + 1, B => f (B.take 16) ++ mapBlocksN f n (B.drop 16)

/-- `MapBlocks(f, B)` for a buffer whose length is a multiple of 16 (R95). -/
def mapBlocks (f : List Byte → List Byte) (B : List Byte) : List Byte := mapBlocksN f (B.length / 16) B

/-- `AddRoundKey(s, k)[i] = s[i] ^ k[i]` (R96). -/
def addRoundKey (s k : List Byte) : List Byte := xorBytes s k

/-- The substitution table of a mode (R98). -/
def subTable : Mode → Byte → Byte
  | .enc => sbox
  | .dec => invSbox

/-- `SubBytes(s, m)` (R98). -/
def subBytes (m : Mode) (s : List Byte) : List Byte := s.map (subTable m)

/-- The column that row `r` of the result takes its byte of column `c` from: `(c + r) % 4` in mode `Enc`,
`(c + 4 − r) % 4` in mode `Dec` (R101). -/
def shiftSource (m : Mode) (r c : Nat) : Nat :=
  match m with
  | .enc => (c + r) % 4
  | .dec => (c + 4 - r) % 4

/-- `ShiftRows(s, m)`: `s'[r + 4c] = s[r + 4 × source]` (R101). -/
def shiftRows (m : Mode) (s : List Byte) : List Byte :=
  (List.range 16).map fun i => blockByte s (i % 4 + 4 * shiftSource m (i % 4) (i / 4))

/-- Row 0 of the matrix of a mode: `{2,3,1,1}` or `{14,11,13,9}` (R104). -/
def matrixRow0 : Mode → List Byte
  | .enc => [0x02, 0x03, 0x01, 0x01]
  | .dec => [0x0e, 0x0b, 0x0d, 0x09]

/-- `M[r][k] = row0[(k + 4 − r) % 4]`: row `r` is row 0 rotated right by `r` places (R104). -/
def matrixEntry (m : Mode) (r k : Nat) : Byte := (matrixRow0 m).getD ((k + 4 - r) % 4) 0

/-- The product of row `r` of the matrix and column `c` of the block (R104). -/
def mixByte (m : Mode) (s : List Byte) (r c : Nat) : Byte :=
  gmul (matrixEntry m r 0) (blockByte s (4 * c)) ^^^ gmul (matrixEntry m r 1) (blockByte s (1 + 4 * c)) ^^^
    gmul (matrixEntry m r 2) (blockByte s (2 + 4 * c)) ^^^ gmul (matrixEntry m r 3) (blockByte s (3 + 4 * c))

/-- `MixColumns(s, m)`: every output byte from the four input bytes of its column, "before any is replaced" (R104). -/
def mixColumns (m : Mode) (s : List Byte) : List Byte := (List.range 16).map fun i => mixByte m s (i % 4) (i / 4)

/-- `D[0..LEN) <- MapBlocks(f, D[0..LEN))`: the effect of a primitive command (R95). -/
def onData (f : List Byte → List Byte) (s : State) : State :=
  { s with D := s.D.store dBase (mapBlocks f (data s s.LEN.toNat)) }

/-- The effect of ARK r: every block gets round key `r` (R97). -/
def arkEffect (r : Nat) (s : State) : State := onData (fun b => addRoundKey b (roundKey s r)) s

/-- ARK r (R97). -/
def execArk (r : Nat) (s : State) : Host.Outcome State Fault Refusal := command (arkChecks r) (arkEffect r) s

/-- SUBBYTES (R99). -/
def execSubbytes (s : State) : Host.Outcome State Fault Refusal := command primChecks (onData (subBytes .enc)) s

/-- INVSUBBYTES (R100). -/
def execInvsubbytes (s : State) : Host.Outcome State Fault Refusal := command primChecks (onData (subBytes .dec)) s

/-- SHIFTROWS (R102). -/
def execShiftrows (s : State) : Host.Outcome State Fault Refusal := command primChecks (onData (shiftRows .enc)) s

/-- INVSHIFTROWS (R103). -/
def execInvshiftrows (s : State) : Host.Outcome State Fault Refusal := command primChecks (onData (shiftRows .dec)) s

/-- MIXCOLUMNS (R105). -/
def execMixcolumns (s : State) : Host.Outcome State Fault Refusal := command primChecks (onData (mixColumns .enc)) s

/-- INVMIXCOLUMNS (R106). -/
def execInvmixcolumns (s : State) : Host.Outcome State Fault Refusal := command primChecks (onData (mixColumns .dec)) s

end Sys2Proof.Machine
end

