-- ==== Sys2Proof/Machine/Pipeline.lean ====
section
/-! DEFINITION. The block cipher pipeline: padding, Encrypt, Decrypt (R120-R123) and the commands ENC and DEC
(R124, R125). -/

namespace Sys2Proof.Machine

/-- `Pad(B)`: zero bytes up to the next multiple of 16 (R120). -/
def pad (B : List Byte) : List Byte := B ++ List.replicate (ceil16 B.length - B.length) 0x00

/-- Round key `r` of a schedule: `rk(r) = schedule[16r..16r+16)` (R121). -/
def scheduleKey (schedule : List Byte) (r : Nat) : List Byte := slice schedule (16 * r) 16

/-- AddRoundKey on every block of a buffer, with round key `r` of the schedule (R122). -/
def addRound (schedule B : List Byte) (r : Nat) : List Byte :=
  mapBlocks (fun b => addRoundKey b (scheduleKey schedule r)) B

/-- A full round of encryption: SubBytes, ShiftRows, MixColumns, AddRoundKey (R122). -/
def encryptRound (schedule B : List Byte) (r : Nat) : List Byte :=
  addRound schedule (mapBlocks (mixColumns .enc) (mapBlocks (shiftRows .enc) (mapBlocks (subBytes .enc) B))) r

/-- `Encrypt(B, schedule, Nr)`: whitening, rounds 1 to `Nr − 1` ascending, and the final round without MixColumns
(R122). -/
def encrypt (B schedule : List Byte) (nr : Nat) : List Byte :=
  let whitened := addRound schedule B 0
  let mixed := (List.range' 1 (nr - 1)).foldl (encryptRound schedule) whitened
  addRound schedule (mapBlocks (shiftRows .enc) (mapBlocks (subBytes .enc) mixed)) nr

/-- A full round of decryption: AddRoundKey, InvMixColumns, InvShiftRows, InvSubBytes (R123). -/
def decryptRound (schedule B : List Byte) (r : Nat) : List Byte :=
  mapBlocks (subBytes .dec) (mapBlocks (shiftRows .dec) (mapBlocks (mixColumns .dec) (addRound schedule B r)))

/-- `Decrypt(B, schedule, Nr)`: the final round undone, rounds `Nr − 1` to 1 descending, and the last AddRoundKey with
round key 0 (R123). -/
def decrypt (B schedule : List Byte) (nr : Nat) : List Byte :=
  let opened := mapBlocks (subBytes .dec) (mapBlocks (shiftRows .dec) (addRound schedule B nr))
  let unmixed := (List.range' 1 (nr - 1)).reverse.foldl (decryptRound schedule) opened
  addRound schedule unmixed 0

/-- The padding step of ENC and DEC: `D[i] <- 0x00` for `i` in `LEN..P)`, then `LEN <- P` (R124). -/
def padData (s : State) : State :=
  let n := s.LEN.toNat
  { s with D := s.D.store (dBase + n) (List.replicate (ceil16 n - n) 0x00), LEN := BitVec.ofNat 16 (ceil16 n) }

/-- The effect of ENC and DEC: pad, expand the key, and run a pipeline over `D[0..P)` with the schedule just written
(R124, R125). -/
def cipherEffect (cipher : List Byte → List Byte → Nat → List Byte) (s : State) : State :=
  let p := ceil16 s.LEN.toNat
  let nr := rounds s
  let t := expandKey (padData s)
  { t with D := t.D.store dBase (cipher (data t p) (t.RK.load rkBase (scheduleBytes nr)) nr) }

/-- ENC (R124). -/
def execEnc (s : State) : Host.Outcome State Fault Refusal := command pipelineChecks (cipherEffect encrypt) s

/-- DEC (R125); a ciphertext whose length is no multiple of 16 is zero-extended, as the source does (U7). -/
def execDec (s : State) : Host.Outcome State Fault Refusal := command pipelineChecks (cipherEffect decrypt) s

end Sys2Proof.Machine
end

