-- ==== Sys2Proof/Machine/Port.lean ====
section
/-! DEFINITION. The host port: a write to CMD (R54), the three transactions (R30-R32, R165), and the host-script
notation (R55, R56). -/

namespace Sys2Proof.Machine

/-- A write of byte `c` to `CMD` (R54): no effect while `HALT = 1`; else the command it decodes to, or E_ILLCMD for a
reserved byte (R143). -/
def executeCommand (c : Byte) (s : State) : Host.Outcome State Fault Refusal :=
  if s.HALT then .next s
  else match decode c with
    | .ok i => exec i s
    | .error (.reserved _) => .next (raise .eIllcmd s)

/-- `MemWrite(a, 1, v)` (R32): no effect while `HALT = 1` (R44); at `CMD` a command; elsewhere a store. -/
def memWrite (a : Nat) (v : Byte) (s : State) : Host.Outcome State Fault Refusal :=
  if s.HALT then .next s
  else if a = cmdAddr then executeCommand v s
  else .next (hostStore a v s)

/-- One transaction, to completion (R36, R39). A read changes no state of the engine (R31); the byte it returns is
appended to what the host has received (log entry 2). -/
def transact (x : Txn) (s : State) : Host.Outcome State Fault Refusal :=
  match x with
  | .memRead a => .next { s with returned := s.returned ++ [memRead s a.toNat] }
  | .memWrite a v => memWrite a.toNat v s
  | .reset => .next (resetEvent s)

/-- The transaction a command line of R55 stands for: the command's byte written to `CMD`. -/
def commandTxn (i : Instr) : Txn := .memWrite (BitVec.ofNat 17 cmdAddr) (encode i)

/-- The bytes `h` written from address `base` on, in ascending order (R56). -/
def writeBytes (base : Nat) (h : List Byte) : List Txn :=
  h.zipIdx.map fun p => .memWrite (BitVec.ofNat 17 (base + p.2)) p.1

/-- `SETKLEN n` (R56). -/
def setklen (n : Nat) : List Txn := [.memWrite 0x00020 (BitVec.ofNat 8 n)]

/-- `SETLEN n` (R56). -/
def setlen (n : Nat) : List Txn :=
  [.memWrite 0x00022 (BitVec.ofNat 8 (n % 256)), .memWrite 0x00023 (BitVec.ofNat 8 (n / 256))]

/-- `LDKEY h`: the key bytes, then `KLEN` with their number, whatever it is (R56). -/
def ldkey (h : List Byte) : List Txn := writeBytes kBase h ++ setklen h.length

/-- `LDDATA h`: the data bytes, then the two bytes of `LEN` (R56). -/
def lddata (h : List Byte) : List Txn := writeBytes dBase h ++ setlen h.length

/-- The reads of `EXPECT addr, h` for an `h` of `n` bytes (R56); that they return `h` is a statement, not an effect. -/
def expectReads (addr n : Nat) : List Txn := (List.range n).map fun i => .memRead (BitVec.ofNat 17 (addr + i))

/-- The host issues transactions: they wait behind those issued before (R39). -/
def issue (xs : List Txn) (s : State) : State := { s with pending := s.pending ++ xs }

end Sys2Proof.Machine
end

