-- ==== Sys2Proof/Machine/Step.lean ====
section
/-! DEFINITION. One step: the host's oldest pending transaction. -/

namespace Sys2Proof.Machine

/-- The oldest pending transaction takes full effect (R39); with none pending the engine "is idle and keeps all its
state" (R157; log entry 1). -/
def step (s : State) : Host.Outcome State Fault Refusal :=
  match s.pending with
  | [] => .next s
  | x :: rest => transact x { s with pending := rest }

/-- `s` with the write of an instruction's byte to `CMD` as the host's next transaction (log entry 11). -/
def State.withFetchWord (s : State) (nbits w : Nat) : State :=
  { s with pending := .memWrite (BitVec.ofNat 17 cmdAddr) (tableByte nbits w) :: s.pending }

end Sys2Proof.Machine
end

