-- ==== Sys2Proof/Safety.lean ====
section
/-! DEFINITION. What claims mean by a legal state and by a run that went well. -/

namespace Sys2Proof.Machine

/-- "Its value is always one of 0, 10, 12, 14" (R16). -/
abbrev State.srndLegal (s : State) : Prop := s.SRND = 0 ∨ s.SRND = 10 ∨ s.SRND = 12 ∨ s.SRND = 14

/-- The three arrays exist, each byte at its address of R33 and no other: the memories are in canonical form. -/
abbrev State.arraysSpan (s : State) : Prop :=
  s.K.spans kBase kBytes ∧ s.RK.spans rkBase rkBytes ∧ s.D.spans dBase s.dbufBytes

/-- A state as the spec describes it: NBLK in range (R6), the arrays whole (R11, R14, R15), `SRND` legal (R16), and
`HALT` set exactly when `RES` holds a fatal code (R17, R150). -/
abbrev State.Inv (s : State) : Prop :=
  s.cfg.legal ∧ s.arraysSpan ∧ s.srndLegal ∧ s.HALT = s.RES.fatal

/-- What a non-zero `SRND` says (R16): `RK[0..16×(Nr+1))` is a schedule of `SRND` rounds, that is the expansion of some
key of `4×(SRND − 6)` bytes. -/
def State.scheduleHeld (s : State) : Prop :=
  s.SRND ≠ 0 → ∃ k : List Byte, k.length = 4 * (s.SRND.toNat - 6) ∧
    s.RK.load rkBase (scheduleBytes s.SRND.toNat) = expand k

/-- "A run that ends with `HALT = 1` has gone wrong" (R169). -/
abbrev State.wentWell (s : State) : Prop := s.HALT = false

/-- The states a run can reach (R169): a run is a sequence of steps, between which the host may issue transactions. -/
inductive Reaches (s : State) : State → Prop
  | refl : Reaches s s
  | step {t u : State} : Reaches s t → Machine.step t = .next u → Reaches s u
  | issue {t : State} (xs : List Txn) : Reaches s t → Reaches s (Machine.issue xs t)

end Sys2Proof.Machine
end

