-- ==== Sys2Proof/Certificates/Slice0/Obligations.lean ====
section
/-! DEFINITION. The statements for the provers. `Sys2Proof.Claims` holds the words they are written in: the spec's own
tables and cases, written out here apart from the model's definitions. -/

open Sys2Proof Sys2Proof.Machine

/-! ### The words of the statements -/

/-- Block `b` of the buffer: `D[16b..16b+16)` (R14). -/
def Sys2Proof.Claims.block (s : State) (b : Nat) : List Byte := s.D.load (dBase + 16 * b) 16

/-- Only `D` and `RES` change, `RES` to 0; block `b` of `D[0..LEN)` becomes `f` of it; every other byte reads as before. -/
def Sys2Proof.Claims.BlocksBecome (f : List Byte → List Byte) (s t : State) : Prop :=
  t = { s with D := t.D, RES := .ok } ∧
  (∀ b, 16 * b < s.LEN.toNat → Claims.block t b = f (Claims.block s b)) ∧
  ∀ a, a < dBase ∨ dBase + s.LEN.toNat ≤ a → t.D.read a = s.D.read a

/-- The rule of a primitive command without operand whose function on a block is `f`: the checks of R107 in their order,
then `f` on every block. -/
def Sys2Proof.Claims.PrimitiveRule (i : Instr) (f : List Byte → List Byte) : Prop :=
  ∀ s : State, s.Inv → s.HALT = false →
    (s.dbufBytes < s.LEN.toNat → exec i s = .next { s with RES := .eLen }) ∧
    (s.LEN.toNat ≤ s.dbufBytes → s.LEN.toNat % 16 ≠ 0 → exec i s = .next { s with RES := .fAlign, HALT := true }) ∧
    (s.LEN.toNat ≤ s.dbufBytes → s.LEN.toNat % 16 = 0 → ∃ t, exec i s = .next t ∧ Claims.BlocksBecome f s t)

/-- The block whose byte `i` is byte `src[i]` of `s`. -/
def Sys2Proof.Claims.permuted (src : List Nat) (s : List Byte) : List Byte := src.map fun j => s.getD j 0

/-- `KLEN` is one of the legal values (R12). -/
def Sys2Proof.Claims.KeyLengthLegal (s : State) : Prop := s.KLEN = 16 ∨ s.KLEN = 24 ∨ s.KLEN = 32

/-- The schedule of the key held stands in `RK`, and every byte of `RK` outside it reads as before (R84, R124, R125). -/
def Sys2Proof.Claims.ScheduleWritten (s t : State) : Prop :=
  t.SRND.toNat = s.KLEN.toNat / 4 + 6 ∧
  t.RK.load rkBase (16 * (s.KLEN.toNat / 4 + 6 + 1)) = expand (s.K.load kBase s.KLEN.toNat) ∧
  ∀ a, a < rkBase ∨ rkBase + 16 * (s.KLEN.toNat / 4 + 6 + 1) ≤ a → t.RK.read a = s.RK.read a

/-- The rule of ENC or DEC with the pipeline `cipher`: E_KEYSIZE, then E_LEN, then padding, expansion and the pipeline in
place. `P = ceil16(LEN)` is written out as the least multiple of 16 that is not below `LEN`. -/
def Sys2Proof.Claims.PipelineRule (i : Instr) (cipher : List Byte → List Byte → Nat → List Byte) : Prop :=
  ∀ s : State, s.Inv → s.HALT = false →
    (¬ Claims.KeyLengthLegal s → exec i s = .next { s with RES := .eKeysize }) ∧
    (Claims.KeyLengthLegal s → s.dbufBytes < s.LEN.toNat → exec i s = .next { s with RES := .eLen }) ∧
    (Claims.KeyLengthLegal s → s.LEN.toNat ≤ s.dbufBytes → ∃ t p, exec i s = .next t ∧
      t = { s with LEN := t.LEN, D := t.D, RK := t.RK, SRND := t.SRND, RES := .ok } ∧
      p % 16 = 0 ∧ s.LEN.toNat ≤ p ∧ p < s.LEN.toNat + 16 ∧ t.LEN.toNat = p ∧
      Claims.ScheduleWritten s t ∧
      t.D.load dBase p =
        cipher (s.D.load dBase s.LEN.toNat ++ List.replicate (p - s.LEN.toNat) 0x00)
          (expand (s.K.load kBase s.KLEN.toNat)) (s.KLEN.toNat / 4 + 6) ∧
      ∀ a, a < dBase ∨ dBase + p ≤ a → t.D.read a = s.D.read a)

/-- Run commands one after another. -/
def Sys2Proof.Claims.execAll : List Instr → State → Host.Outcome State Fault Refusal
  | [], s => .next s
  | i :: is, s =>
    match exec i s with
    | .next t => Claims.execAll is t
    | .fault r => .fault r
    | .refused r => .refused r

/-- The step list of Encrypt (R122) as primitive commands, after KEXP. -/
def Sys2Proof.Claims.encryptByHand (nr : Nat) : List Instr :=
  [.kexp, .ark 0] ++
  (List.range' 1 (nr - 1)).flatMap (fun r => [.subbytes, .shiftrows, .mixcolumns, .ark r]) ++
  [.subbytes, .shiftrows, .ark nr]

/-- The step list of Decrypt (R123) as primitive commands, after KEXP. -/
def Sys2Proof.Claims.decryptByHand (nr : Nat) : List Instr :=
  [.kexp, .ark nr, .invshiftrows, .invsubbytes] ++
  (List.range' 1 (nr - 1)).reverse.flatMap (fun r => [.ark r, .invmixcolumns, .invshiftrows, .invsubbytes]) ++
  [.ark 0]

/-- The cause a write of `c` to `CMD` reports while `HALT = 0`: "One command reports one code, the first that applies in
this order" (R148, causes 2 to 6), or 0. -/
def Sys2Proof.Claims.firstToApply (c : Byte) (s : State) : ResCode :=
  match decode c with
  | .error _ => .eIllcmd
  | .ok i =>
    if i ∈ [Instr.kexp, Instr.enc, Instr.dec] ∧ ¬ (s.KLEN = 16 ∨ s.KLEN = 24 ∨ s.KLEN = 32) then .eKeysize
    else if i ≠ .kexp ∧ s.LEN.toNat > 16 * s.cfg.nblk then .eLen
    else if i ∉ [Instr.kexp, Instr.enc, Instr.dec] ∧ s.LEN.toNat % 16 ≠ 0 then .fAlign
    else match i with
      | .ark r => if s.SRND.toNat = 0 ∨ r > s.SRND.toNat then .fRound else .ok
      | _ => .ok

/-- The seven primitive commands, as pairs of a command and the one that undoes it. -/
def Sys2Proof.Claims.undoPairs (r : Nat) : List (Instr × Instr) :=
  [(.ark r, .ark r), (.subbytes, .invsubbytes), (.invsubbytes, .subbytes), (.shiftrows, .invshiftrows),
   (.invshiftrows, .shiftrows), (.mixcolumns, .invmixcolumns), (.invmixcolumns, .mixcolumns)]

/-! ### Encoding -/

/-- A byte decodes to a command exactly when the command is well formed and the byte is its encoding (R50-R54). -/
def Obligations.DecodeAndEncodeAgree : Prop :=
  ∀ (c : Byte) (i : Instr), decode c = .ok i ↔ i.wellFormed = true ∧ encode i = c

/-- R52: "byte `c` is that command when `(c AND mask) = match`", row by row. -/
def Obligations.OpcodeMapByMaskAndMatch : Prop :=
  ∀ c : Byte,
    (decode c = .ok .kexp ↔ c &&& 0xFF = 0x10) ∧
    (decode c = .ok (.ark (c &&& 0x0F).toNat) ↔ c &&& 0xF0 = 0x20) ∧
    (decode c = .ok .subbytes ↔ c &&& 0xFF = 0x30) ∧
    (decode c = .ok .invsubbytes ↔ c &&& 0xFF = 0x31) ∧
    (decode c = .ok .shiftrows ↔ c &&& 0xFF = 0x40) ∧
    (decode c = .ok .invshiftrows ↔ c &&& 0xFF = 0x41) ∧
    (decode c = .ok .mixcolumns ↔ c &&& 0xFF = 0x50) ∧
    (decode c = .ok .invmixcolumns ↔ c &&& 0xFF = 0x51) ∧
    (decode c = .ok .enc ↔ c &&& 0xFF = 0x60) ∧
    (decode c = .ok .dec ↔ c &&& 0xFF = 0x70)

/-- R53, R143: the reserved bytes, 231 in number, and what a write of one to `CMD` does while `HALT = 0`. -/
def Obligations.ReservedBytesRaiseIllegalCommand : Prop :=
  (∀ c : Byte, decode c = .error (.reserved c) ↔
    c.toNat ≤ 0x0F ∨ 0x80 ≤ c.toNat ∨ (0x11 ≤ c.toNat ∧ c.toNat ≤ 0x1F) ∨ (0x32 ≤ c.toNat ∧ c.toNat ≤ 0x3F) ∨
    (0x42 ≤ c.toNat ∧ c.toNat ≤ 0x4F) ∨ (0x52 ≤ c.toNat ∧ c.toNat ≤ 0x5F) ∨ (0x61 ≤ c.toNat ∧ c.toNat ≤ 0x6F) ∨
    (0x71 ≤ c.toNat ∧ c.toNat ≤ 0x7F)) ∧
  ((List.range 256).filter fun n => decide (decode (BitVec.ofNat 8 n) = .error (.reserved (BitVec.ofNat 8 n)))).length
    = 231 ∧
  ∀ (s : State) (c : Byte) (rest : List Txn), decode c = .error (.reserved c) → s.HALT = false →
    s.pending = .memWrite 0x00024 c :: rest → step s = .next { s with pending := rest, RES := .eIllcmd }

/-- One word of each of the families, written out from the `op arg` column of R52. -/
def Obligations.SampleWordsDecode : Prop :=
  decode 0b00010000 = .ok .kexp ∧ decode 0b00101010 = .ok (.ark 10) ∧ decode 0b00110001 = .ok .invsubbytes ∧
  decode 0b01000000 = .ok .shiftrows ∧ decode 0b01010001 = .ok .invmixcolumns ∧ decode 0b01100000 = .ok .enc ∧
  decode 0b01110000 = .ok .dec

/-! ### Field arithmetic and tables -/

/-- R67: the product is commutative and associative, distributes over XOR, and has 1 and 0 as it should. -/
def Obligations.FieldProductLaws : Prop :=
  ∀ a b c : Byte,
    gmul a b = gmul b a ∧ gmul (gmul a b) c = gmul a (gmul b c) ∧ gmul a (b ^^^ c) = gmul a b ^^^ gmul a c ∧
    gmul a 1 = a ∧ gmul a 0 = 0

/-- R68: the seven products of the matrices in terms of `xtime`. -/
def Obligations.MatrixProductsFromXtime : Prop :=
  ∀ x : Byte,
    let x2 := xtime x
    let x4 := xtime x2
    let x8 := xtime x4
    gmul 1 x = x ∧ gmul 2 x = x2 ∧ gmul 3 x = x2 ^^^ x ∧ gmul 9 x = x8 ^^^ x ∧ gmul 11 x = x8 ^^^ x2 ^^^ x ∧
    gmul 13 x = x8 ^^^ x4 ^^^ x ∧ gmul 14 x = x8 ^^^ x4 ^^^ x2

/-- R66: `xtime` on numbers: doubling modulo 256, with 0x1B XORed in when bit 7 was set. -/
def Obligations.XtimeDoublesAndReduces : Prop :=
  ∀ a : Byte,
    (a.toNat < 0x80 → (xtime a).toNat = (2 * a.toNat) % 256) ∧
    (0x80 ≤ a.toNat → (xtime a).toNat = (2 * a.toNat) % 256 ^^^ 0x1B)

/-- R71: the inverse property both ways, and no fixed or opposite fixed point. -/
def Obligations.SboxesAreInverse : Prop :=
  ∀ x : Byte, invSbox (sbox x) = x ∧ sbox (invSbox x) = x ∧ sbox x ≠ x ∧ sbox x ≠ x ^^^ 0xFF

/-- R72: `SBOX[x]` is the affine image of the inverse of `x` in the field, of 0 for `x = 0`. -/
def Obligations.SboxIsAffineOfInverse : Prop :=
  ∀ x : Byte, ∃ b : Byte, (x = 0 → b = 0) ∧ (x ≠ 0 → gmul x b = 1) ∧
    sbox x = b ^^^ b.rotateLeft 1 ^^^ b.rotateLeft 2 ^^^ b.rotateLeft 3 ^^^ b.rotateLeft 4 ^^^ 0x63

/-- R73: `RCON[1] = 0x01`, `RCON[j+1] = xtime(RCON[j])`, and only the indices 1 to 10 are ever read. -/
def Obligations.RoundConstantsArePowers : Prop :=
  rcon 1 = 0x01 ∧ (∀ j, 1 ≤ j → j < 10 → rcon (j + 1) = xtime (rcon j)) ∧
  ∀ nk i, nk ∈ [4, 6, 8] → nk ≤ i → i ≤ 4 * (nk + 6 + 1) - 1 → i % nk = 0 → 1 ≤ i / nk ∧ i / nk ≤ 10

/-! ### Key expansion -/

/-- R82: the schedule's length, its first words and its recurrence, byte by byte, for every key of a legal length. Byte
`k` of word `i` is byte `4i + k` of the schedule; RotWord takes byte `(k + 1) % 4`, and `RCON` meets byte 0. -/
def Obligations.ExpandFollowsTheRecurrence : Prop :=
  ∀ (key : List Byte) (nk : Nat), nk ∈ [4, 6, 8] → key.length = 4 * nk →
    let w := fun i k => (expand key).getD (4 * i + k) 0
    (expand key).length = 16 * (nk + 6 + 1) ∧
    ∀ i k, k < 4 →
      (i < nk → w i k = key.getD (4 * i + k) 0) ∧
      (nk ≤ i → i < 4 * (nk + 6 + 1) →
        (i % nk = 0 →
          w i k = w (i - nk) k ^^^ (sbox (w (i - 1) ((k + 1) % 4)) ^^^ (if k = 0 then rcon (i / nk) else 0))) ∧
        (i % nk ≠ 0 → nk > 6 ∧ i % nk = 4 → w i k = w (i - nk) k ^^^ sbox (w (i - 1) k)) ∧
        (i % nk ≠ 0 → ¬ (nk > 6 ∧ i % nk = 4) → w i k = w (i - nk) k ^^^ w (i - 1) k))

/-- R84: KEXP, its encoding, its exception and its effect. -/
def Obligations.KexpExpandsTheKeyHeld : Prop :=
  decode 0x10 = .ok .kexp ∧
  ∀ s : State, s.Inv → s.HALT = false →
    (¬ Claims.KeyLengthLegal s → exec .kexp s = .next { s with RES := .eKeysize }) ∧
    (Claims.KeyLengthLegal s → ∃ t, exec .kexp s = .next t ∧
      t = { s with RK := t.RK, SRND := t.SRND, RES := .ok } ∧ Claims.ScheduleWritten s t)

/-! ### The round transform primitives -/

/-- R108: the inverse pairs, the commutation of SubBytes and ShiftRows, the linearity of MixColumns. -/
def Obligations.PrimitiveLaws : Prop :=
  ∀ s t k : List Byte, s.length = 16 → t.length = 16 → k.length = 16 → ∀ m m' : Mode,
    subBytes .dec (subBytes .enc s) = s ∧ subBytes .enc (subBytes .dec s) = s ∧
    shiftRows .dec (shiftRows .enc s) = s ∧ shiftRows .enc (shiftRows .dec s) = s ∧
    mixColumns .dec (mixColumns .enc s) = s ∧ mixColumns .enc (mixColumns .dec s) = s ∧
    addRoundKey (addRoundKey s k) k = s ∧
    subBytes m' (shiftRows m s) = shiftRows m (subBytes m' s) ∧
    mixColumns m (xorBytes s t) = xorBytes (mixColumns m s) (mixColumns m t)

/-- R101: row `r` of the column-major matrix moves by `r` places, as a matrix and as the table of source indices. -/
def Obligations.ShiftRowsRotatesRows : Prop :=
  ∀ s : List Byte, s.length = 16 →
    (∀ r c, r < 4 → c < 4 →
      (shiftRows .enc s).getD (r + 4 * c) 0 = s.getD (r + 4 * ((c + r) % 4)) 0 ∧
      (shiftRows .dec s).getD (r + 4 * c) 0 = s.getD (r + 4 * ((c + 4 - r) % 4)) 0) ∧
    shiftRows .enc s = Claims.permuted [0, 5, 10, 15, 4, 9, 14, 3, 8, 13, 2, 7, 12, 1, 6, 11] s ∧
    shiftRows .dec s = Claims.permuted [0, 13, 10, 7, 4, 1, 14, 11, 8, 5, 2, 15, 12, 9, 6, 3] s

/-- R104: the eight equations of every column, four for each mode. -/
def Obligations.MixColumnsEquations : Prop :=
  ∀ s : List Byte, s.length = 16 →
    (mixColumns .enc s).length = 16 ∧ (mixColumns .dec s).length = 16 ∧
    ∀ c, c < 4 →
      let a := fun k => s.getD (k + 4 * c) 0
      let e := fun k => (mixColumns .enc s).getD (4 * c + k) 0
      let d := fun k => (mixColumns .dec s).getD (4 * c + k) 0
      e 0 = gmul 2 (a 0) ^^^ gmul 3 (a 1) ^^^ a 2 ^^^ a 3 ∧
      e 1 = a 0 ^^^ gmul 2 (a 1) ^^^ gmul 3 (a 2) ^^^ a 3 ∧
      e 2 = a 0 ^^^ a 1 ^^^ gmul 2 (a 2) ^^^ gmul 3 (a 3) ∧
      e 3 = gmul 3 (a 0) ^^^ a 1 ^^^ a 2 ^^^ gmul 2 (a 3) ∧
      d 0 = gmul 14 (a 0) ^^^ gmul 11 (a 1) ^^^ gmul 13 (a 2) ^^^ gmul 9 (a 3) ∧
      d 1 = gmul 9 (a 0) ^^^ gmul 14 (a 1) ^^^ gmul 11 (a 2) ^^^ gmul 13 (a 3) ∧
      d 2 = gmul 13 (a 0) ^^^ gmul 9 (a 1) ^^^ gmul 14 (a 2) ^^^ gmul 11 (a 3) ∧
      d 3 = gmul 11 (a 0) ^^^ gmul 13 (a 1) ^^^ gmul 9 (a 2) ^^^ gmul 14 (a 3)

/-- R95: block `b` of `MapBlocks(f, B)` is `f` of block `b` of `B`, and the empty buffer stays empty. -/
def Obligations.MapBlocksActsOnEachBlock : Prop :=
  ∀ (f : List Byte → List Byte) (B : List Byte), (∀ b, b.length = 16 → (f b).length = 16) → B.length % 16 = 0 →
    (mapBlocks f B).length = B.length ∧ mapBlocks f [] = [] ∧
    ∀ b, 16 * b < B.length → ((mapBlocks f B).drop (16 * b)).take 16 = f ((B.drop (16 * b)).take 16)

/-- R99, R100: SUBBYTES and INVSUBBYTES. -/
def Obligations.SubstitutionCommands : Prop :=
  decode 0x30 = .ok .subbytes ∧ decode 0x31 = .ok .invsubbytes ∧
  Claims.PrimitiveRule .subbytes (List.map sbox) ∧ Claims.PrimitiveRule .invsubbytes (List.map invSbox)

/-- R102, R103: SHIFTROWS and INVSHIFTROWS, with the source indices of R101 written out. -/
def Obligations.RowShiftCommands : Prop :=
  decode 0x40 = .ok .shiftrows ∧ decode 0x41 = .ok .invshiftrows ∧
  Claims.PrimitiveRule .shiftrows (Claims.permuted [0, 5, 10, 15, 4, 9, 14, 3, 8, 13, 2, 7, 12, 1, 6, 11]) ∧
  Claims.PrimitiveRule .invshiftrows (Claims.permuted [0, 13, 10, 7, 4, 1, 14, 11, 8, 5, 2, 15, 12, 9, 6, 3])

/-- R105, R106: MIXCOLUMNS and INVMIXCOLUMNS; `MixColumnsEquations` says what the function is. -/
def Obligations.ColumnMixCommands : Prop :=
  decode 0x50 = .ok .mixcolumns ∧ decode 0x51 = .ok .invmixcolumns ∧
  Claims.PrimitiveRule .mixcolumns (mixColumns .enc) ∧ Claims.PrimitiveRule .invmixcolumns (mixColumns .dec)

/-- R97: ARK r for every index, its encoding, its three exceptions in their order, and its effect. -/
def Obligations.AddRoundKeyCommand : Prop :=
  (∀ r, r < 16 → decode (BitVec.ofNat 8 (0x20 + r)) = .ok (.ark r)) ∧
  ∀ (s : State) (r : Nat), s.Inv → s.HALT = false →
    (s.dbufBytes < s.LEN.toNat → exec (.ark r) s = .next { s with RES := .eLen }) ∧
    (s.LEN.toNat ≤ s.dbufBytes → s.LEN.toNat % 16 ≠ 0 →
      exec (.ark r) s = .next { s with RES := .fAlign, HALT := true }) ∧
    (s.LEN.toNat ≤ s.dbufBytes → s.LEN.toNat % 16 = 0 → s.SRND.toNat = 0 ∨ s.SRND.toNat < r →
      exec (.ark r) s = .next { s with RES := .fRound, HALT := true }) ∧
    (s.LEN.toNat ≤ s.dbufBytes → s.LEN.toNat % 16 = 0 → s.SRND.toNat ≠ 0 → r ≤ s.SRND.toNat →
      ∃ t, exec (.ark r) s = .next t ∧
        Claims.BlocksBecome (fun b => List.zipWith (· ^^^ ·) b (s.RK.load (rkBase + 16 * r) 16)) s t)

/-- R97, R98, R103, R108: a primitive command followed by the one that undoes it restores the whole state, but that
`RES` is 0. -/
def Obligations.PrimitiveCommandsUndoEachOther : Prop :=
  ∀ (s : State) (r : Nat), s.Inv → s.HALT = false → s.LEN.toNat ≤ s.dbufBytes → s.LEN.toNat % 16 = 0 →
    s.SRND.toNat ≠ 0 → r ≤ s.SRND.toNat →
    ∀ p ∈ Claims.undoPairs r, Claims.execAll [p.1, p.2] s = .next { s with RES := .ok }

/-- R97: "`ARK 15` is fatal for every schedule because `SRND <= 14`" (an earlier check may raise E_LEN or F_ALIGN). -/
def Obligations.ArkFifteenNeverCompletes : Prop :=
  ∀ s : State, s.Inv → s.HALT = false →
    ∃ t, exec (.ark 15) s = .next t ∧ t.RES ≠ .ok ∧ t.D = s.D ∧
      (s.LEN.toNat ≤ s.dbufBytes → t.HALT = true)

/-! ### The pipeline -/

/-- R120: `Pad` keeps the bytes, adds fewer than 16 zero bytes, and stops at the least multiple of 16. -/
def Obligations.PadFillsWithZeros : Prop :=
  ∀ B : List Byte,
    (pad B).length % 16 = 0 ∧ B.length ≤ (pad B).length ∧ (pad B).length < B.length + 16 ∧
    pad B = B ++ List.replicate ((pad B).length - B.length) 0x00 ∧ (B.length % 16 = 0 → pad B = B)

/-- R122: the rounds of Encrypt: whitening, the full rounds 1 to `Nr − 1` ascending, the final round without MixColumns.
`B r` is the buffer after round `r`. -/
def Obligations.EncryptRoundSequence : Prop :=
  ∀ (X schedule : List Byte) (nr : Nat), 1 ≤ nr →
    let rk := fun r => (schedule.drop (16 * r)).take 16
    let add := fun r => mapBlocks (fun b => addRoundKey b (rk r))
    ∃ B : Nat → List Byte,
      B 0 = add 0 X ∧
      (∀ r, 1 ≤ r → r < nr → B r =
        add r (mapBlocks (mixColumns .enc) (mapBlocks (shiftRows .enc) (mapBlocks (subBytes .enc) (B (r - 1)))))) ∧
      encrypt X schedule nr = add nr (mapBlocks (shiftRows .enc) (mapBlocks (subBytes .enc) (B (nr - 1))))

/-- R123: the rounds of Decrypt: the final round undone, the full rounds `Nr − 1` to 1 descending, the last AddRoundKey.
`B r` is the buffer when the round keys above `r` have been used. -/
def Obligations.DecryptRoundSequence : Prop :=
  ∀ (X schedule : List Byte) (nr : Nat), 1 ≤ nr →
    let rk := fun r => (schedule.drop (16 * r)).take 16
    let add := fun r => mapBlocks (fun b => addRoundKey b (rk r))
    ∃ B : Nat → List Byte,
      B (nr - 1) = mapBlocks (subBytes .dec) (mapBlocks (shiftRows .dec) (add nr X)) ∧
      (∀ r, 1 ≤ r → r < nr → B (r - 1) =
        mapBlocks (subBytes .dec) (mapBlocks (shiftRows .dec) (mapBlocks (mixColumns .dec) (add r (B r))))) ∧
      decrypt X schedule nr = add 0 (B 0)

/-- R123: `Decrypt(Encrypt(B, sch, Nr), sch, Nr) = B` for every aligned `B`, and the reverse. -/
def Obligations.DecryptUndoesEncrypt : Prop :=
  ∀ (B schedule : List Byte) (nr : Nat), 1 ≤ nr → B.length % 16 = 0 → schedule.length = 16 * (nr + 1) →
    decrypt (encrypt B schedule nr) schedule nr = B ∧ encrypt (decrypt B schedule nr) schedule nr = B

/-- R124: ENC, its encoding, its exceptions in their order, and its effect. -/
def Obligations.EncCommand : Prop := decode 0x60 = .ok .enc ∧ Claims.PipelineRule .enc encrypt

/-- R125: DEC, its encoding, its exceptions in their order, and its effect, the zero padding of a misaligned ciphertext
included (U7). -/
def Obligations.DecCommand : Prop := decode 0x70 = .ok .dec ∧ Claims.PipelineRule .dec decrypt

/-- R127, round trip: ENC and then DEC leaves the input padded with zero bytes, and `LEN` its length. -/
def Obligations.EncThenDecGivesThePaddedInput : Prop :=
  ∀ s : State, s.Inv → s.HALT = false → Claims.KeyLengthLegal s → s.LEN.toNat ≤ s.dbufBytes →
    ∃ t u, exec .enc s = .next t ∧ exec .dec t = .next u ∧ u.RES = .ok ∧
      u.D.load dBase u.LEN.toNat = pad (s.D.load dBase s.LEN.toNat) ∧
      (s.LEN.toNat % 16 = 0 → t.LEN = s.LEN ∧ u.D = s.D)

/-- R127, independence of blocks: an output block depends on the key and on the valid bytes of the same input block
only. -/
def Obligations.OutputBlocksAreIndependent : Prop :=
  ∀ (i : Instr) (s s' t t' : State), i ∈ [Instr.enc, Instr.dec] → s.Inv → s'.Inv → s.HALT = false → s'.HALT = false →
    s'.KLEN = s.KLEN → Claims.KeyLengthLegal s → s'.K.load kBase s.KLEN.toNat = s.K.load kBase s.KLEN.toNat →
    s'.LEN = s.LEN → s.LEN.toNat ≤ s.dbufBytes → s.LEN.toNat ≤ s'.dbufBytes →
    exec i s = .next t → exec i s' = .next t' →
    ∀ b, 16 * b < s.LEN.toNat →
      (∀ j, 16 * b ≤ j → j < 16 * b + 16 → j < s.LEN.toNat → s'.D.read (dBase + j) = s.D.read (dBase + j)) →
      Claims.block t' b = Claims.block t b

/-- R127, pure function: what ENC and DEC leave in `RES`, `LEN` and `D[0..LEN)` depends only on `KLEN`, `K[0..KLEN)`,
`LEN` and `D[0..LEN)` before (and on the capacity), not on `RK`, `SRND`, `RES`, the rest of `K` or the rest of `D`. -/
def Obligations.PipelineIsAPureFunction : Prop :=
  ∀ (i : Instr) (s s' : State), i ∈ [Instr.enc, Instr.dec] → s.Inv → s'.Inv → s.HALT = false → s'.HALT = false →
    s'.cfg = s.cfg → s'.KLEN = s.KLEN → s'.K.load kBase s.KLEN.toNat = s.K.load kBase s.KLEN.toNat → s'.LEN = s.LEN →
    s'.D.load dBase s.LEN.toNat = s.D.load dBase s.LEN.toNat →
    ∃ t t', exec i s = .next t ∧ exec i s' = .next t' ∧ t'.RES = t.RES ∧ t'.LEN = t.LEN ∧
      t'.D.load dBase t.LEN.toNat = t.D.load dBase t.LEN.toNat

/-- Program P3's observation for every key and every aligned buffer: ENC leaves exactly the state that KEXP and the step
list of R122 leave when issued as primitive commands, and DEC the state of the step list of R123. -/
def Obligations.PipelineEqualsPrimitiveSequence : Prop :=
  ∀ s : State, s.Inv → s.HALT = false → Claims.KeyLengthLegal s → s.LEN.toNat ≤ s.dbufBytes → s.LEN.toNat % 16 = 0 →
    (∃ t, exec .enc s = .next t ∧ Claims.execAll (Claims.encryptByHand (s.KLEN.toNat / 4 + 6)) s = .next t) ∧
    (∃ t, exec .dec s = .next t ∧ Claims.execAll (Claims.decryptByHand (s.KLEN.toNat / 4 + 6)) s = .next t)

/-- R126: ENC and DEC never raise F_ALIGN or F_ROUND and never set `HALT`; nor does KEXP (R174). -/
def Obligations.PipelineNeverHalts : Prop :=
  ∀ (i : Instr) (s : State), i ∈ [Instr.kexp, Instr.enc, Instr.dec] → s.HALT = false →
    ∃ t, exec i s = .next t ∧ t.HALT = false ∧ (t.RES = .ok ∨ t.RES = .eKeysize ∨ t.RES = .eLen)

/-! ### Errors and the halted state -/

/-- R147: a command that raises, be it for a reserved byte, changes `RES`, and `HALT` if the code is fatal, and nothing
else: once as a command, once as a write of any byte to `CMD`. -/
def Obligations.ErrorsArePrecise : Prop :=
  (∀ (i : Instr) (s t : State), s.HALT = false → exec i s = .next t → t.RES ≠ .ok →
    t = { s with RES := t.RES, HALT := decide (t.RES = .fAlign ∨ t.RES = .fRound) }) ∧
  ∀ (c : Byte) (s t : State) (rest : List Txn), s.HALT = false → s.pending = .memWrite 0x00024 c :: rest →
    step s = .next t → t.RES ≠ .ok →
    t = { s with pending := rest, RES := t.RES, HALT := decide (t.RES = .fAlign ∨ t.RES = .fRound) }

/-- R148: "One command reports one code, the first that applies" in the order of the rule; with `HALT = 1` the command is
not decoded at all. -/
def Obligations.FirstCauseIsReported : Prop :=
  ∀ (s : State) (c : Byte) (rest : List Txn), s.pending = .memWrite 0x00024 c :: rest →
    (s.HALT = true → step s = .next { s with pending := rest }) ∧
    (s.HALT = false → ∃ t, step s = .next t ∧ t.RES = Claims.firstToApply c s ∧
      t.HALT = decide (t.RES = .fAlign ∨ t.RES = .fRound))

/-- R44, R150: while `HALT = 1` every MemWrite is ignored, a MemRead returns what it would return if the engine were not
halted but for the bit `HALT` itself, and only Reset leaves the state. -/
def Obligations.HaltedEngineIgnoresWrites : Prop :=
  ∀ s : State, s.HALT = true →
    (∀ a v rest, s.pending = .memWrite a v :: rest → step s = .next { s with pending := rest }) ∧
    (∀ a, a ≠ 0x00025 → memRead s a = memRead { s with HALT := false } a) ∧
    (∀ t, step s = .next t → t.HALT = false → ∃ rest, s.pending = .reset :: rest) ∧
    (∀ rest, s.pending = .reset :: rest → ∃ t, step s = .next t ∧ t.HALT = false)

/-- R12, R13, R16, R23: what no command writes: `K`, `KLEN` and NBLK never; `LEN` but by ENC and DEC; `D` but by the data
commands; `RK` and `SRND` but by KEXP, ENC and DEC; and no command clears `HALT`. -/
def Obligations.CommandsWriteOnlyTheirState : Prop :=
  ∀ (i : Instr) (s t : State), exec i s = .next t →
    t.K = s.K ∧ t.KLEN = s.KLEN ∧ t.cfg = s.cfg ∧ t.pending = s.pending ∧ t.returned = s.returned ∧
    t.resets = s.resets ∧
    (i ∉ [Instr.enc, Instr.dec] → t.LEN = s.LEN) ∧ (i = .kexp → t.D = s.D) ∧
    (i ∉ [Instr.kexp, Instr.enc, Instr.dec] → t.RK = s.RK ∧ t.SRND = s.SRND) ∧ (s.HALT = true → t = s)

/-- R14: bytes of `D` beyond the byte sequence are written by no command, but by the padding of ENC and DEC up to
`ceil16(LEN)`. -/
def Obligations.BytesBeyondTheDataAreKept : Prop :=
  ∀ (i : Instr) (s t : State) (a : Nat), s.Inv → exec i s = .next t →
    (i ∉ [Instr.enc, Instr.dec] → dBase + s.LEN.toNat ≤ a → t.D.read a = s.D.read a) ∧
    (dBase + 16 * ((s.LEN.toNat + 15) / 16) ≤ a → t.D.read a = s.D.read a)

/-- R11: the bytes `K[KLEN..32)` are ignored by every command. -/
def Obligations.UnusedKeyBytesAreIgnored : Prop :=
  ∀ (i : Instr) (s t : State) (k : Memory), k.load kBase s.KLEN.toNat = s.K.load kBase s.KLEN.toNat →
    exec i s = .next t → exec i { s with K := k } = .next { t with K := k }

/-- R14: no command reads a byte of `D` beyond the byte sequence: with other bytes there it leaves the same codes, the
same length, the same schedule and the same `D[0..LEN)`. -/
def Obligations.BytesBeyondTheDataAreUnread : Prop :=
  ∀ (i : Instr) (s t : State) (d : Memory), s.Inv → { s with D := d }.arraysSpan →
    d.load dBase s.LEN.toNat = s.D.load dBase s.LEN.toNat → exec i s = .next t →
    ∃ d', exec i { s with D := d } = .next { t with D := d' } ∧
      d'.load dBase t.LEN.toNat = t.D.load dBase t.LEN.toNat

/-! ### The host port -/

/-- R31: MemRead returns the byte the address map says and changes no state of the engine. The model's `returned` list
receives the byte (log entry 2). -/
def Obligations.MemReadFollowsTheMap : Prop :=
  ∀ (s : State) (a : Addr) (rest : List Txn), s.pending = .memRead a :: rest →
    ∃ v, step s = .next { s with pending := rest, returned := s.returned ++ [v] } ∧
      (a.toNat ≤ 0x0001F → v = s.K.read a.toNat) ∧
      (a.toNat = 0x00020 → v = s.KLEN) ∧
      (a.toNat = 0x00022 → v.toNat = s.LEN.toNat % 256) ∧
      (a.toNat = 0x00023 → v.toNat = s.LEN.toNat / 256) ∧
      (a.toNat = 0x00025 → v.toNat = (if s.HALT then 128 else 0) + s.RES.number.toNat) ∧
      (a.toNat = 0x00026 → v = s.SRND) ∧
      (0x00100 ≤ a.toNat → a.toNat ≤ 0x001EF → v = s.RK.read a.toNat) ∧
      (0x10000 ≤ a.toNat → a.toNat < 0x10000 + s.dbufBytes → v = s.D.read a.toNat) ∧
      (a.toNat = 0x00021 ∨ a.toNat = 0x00024 ∨ (0x00027 ≤ a.toNat ∧ a.toNat ≤ 0x000FF) ∨
        (0x001F0 ≤ a.toNat ∧ a.toNat ≤ 0x0FFFF) ∨ 0x10000 + s.dbufBytes ≤ a.toNat → v = 0x00)

/-- R32: MemWrite at every address: nothing while `HALT = 1`; else the byte of a writable location and nothing else, a
command at `CMD`, and nothing at a read-only or unmapped address. -/
def Obligations.MemWriteFollowsTheMap : Prop :=
  ∀ (s : State) (a : Addr) (v : Byte) (rest : List Txn), s.Inv → s.pending = .memWrite a v :: rest →
    (s.HALT = true → step s = .next { s with pending := rest }) ∧
    (s.HALT = false →
      (a.toNat ≤ 0x0001F → ∃ k, step s = .next { s with pending := rest, K := k } ∧ k.read a.toNat = v ∧
        ∀ x, x ≠ a.toNat → k.read x = s.K.read x) ∧
      (a.toNat = 0x00020 → step s = .next { s with pending := rest, KLEN := v }) ∧
      (a.toNat = 0x00022 → ∃ n, step s = .next { s with pending := rest, LEN := n } ∧
        n.toNat = 256 * (s.LEN.toNat / 256) + v.toNat) ∧
      (a.toNat = 0x00023 → ∃ n, step s = .next { s with pending := rest, LEN := n } ∧
        n.toNat = 256 * v.toNat + s.LEN.toNat % 256) ∧
      (a.toNat = 0x00024 → step s = executeCommand v { s with pending := rest }) ∧
      (0x10000 ≤ a.toNat → a.toNat < 0x10000 + s.dbufBytes → ∃ d, step s = .next { s with pending := rest, D := d } ∧
        d.read a.toNat = v ∧ ∀ x, x ≠ a.toNat → d.read x = s.D.read x) ∧
      (a.toNat = 0x00021 ∨ (0x00025 ≤ a.toNat ∧ a.toNat ≤ 0x0FFFF) ∨ 0x10000 + s.dbufBytes ≤ a.toNat →
        step s = .next { s with pending := rest }))

/-- R34: a write to a reserved address or to the read-only `STATUS`, `SRND` and `RK` has no effect and is no error, and a
reserved address reads 0x00. -/
def Obligations.ReservedAndReadOnlyAreInert : Prop :=
  ∀ (s : State) (a : Nat), a < 2 ^ 17 →
    (let reserved := a = 0x00021 ∨ (0x00027 ≤ a ∧ a ≤ 0x000FF) ∨ (0x001F0 ≤ a ∧ a ≤ 0x0FFFF) ∨ 0x10000 + s.dbufBytes ≤ a
     (reserved → memRead s a = 0x00) ∧
     (reserved ∨ a = 0x00025 ∨ a = 0x00026 ∨ (0x00100 ≤ a ∧ a ≤ 0x001EF) →
       ∀ v rest, s.pending = .memWrite (BitVec.ofNat 17 a) v :: rest → step s = .next { s with pending := rest }))

/-- A STEP RUNS THE DECODED COMMAND: a pending write to `CMD` of a byte that decodes to `i` makes the step `exec i` at the
state without that transaction; so does the byte of every well-formed command, put there by `withFetchWord`. Two of the
model's own readings stand in it: `withFetchWord` is the host's next write to `CMD` and does not clear `HALT` (log entry
11, DEDUCED), and with `HALT = 1`, where R54 and R148 say that the command is not run at all, both sides keep the state,
because `exec` checks `HALT` itself (log entry 8, DEDUCED). -/
def Obligations.StepRunsTheDecodedCommand : Prop :=
  (∀ (s : State) (c : Byte) (i : Instr) (rest : List Txn), s.pending = .memWrite 0x00024 c :: rest →
    decode c = .ok i → step s = exec i { s with pending := rest }) ∧
  ∀ (s : State) (i : Instr), i.wellFormed = true → step (s.withFetchWord 8 (encode i).toNat) = exec i s

/-- R39, R169: every transaction takes full effect, oldest first, and none stops the machine: a step always answers a next
state, from which just the transaction performed is gone; with none pending the state is kept (R157; log entry 1). -/
def Obligations.EveryTransactionCompletesInOrder : Prop :=
  ∀ s : State, (∃ t, step s = .next t ∧ t.pending = s.pending.tail ∧ t.cfg = s.cfg) ∧
    (s.pending = [] → step s = .next s) ∧
    ∀ xs, (issue xs s).pending = s.pending ++ xs

/-! ### Reset -/

/-- R165: the Reset event's five values, and the arrays whole again; the filling is a free value (log entry 5). -/
def Obligations.ResetTransactionClears : Prop :=
  ∀ (s : State) (rest : List Txn), s.pending = .reset :: rest →
    ∃ t, step s = .next t ∧
      t = { s with K := t.K, KLEN := 0, LEN := 0, D := t.D, RK := t.RK, SRND := 0, RES := .ok, HALT := false,
                   pending := rest, resets := t.resets } ∧
      t.arraysSpan ∧ memRead t 0x00025 = 0x00 ∧ memRead t 0x00026 = 0x00

/-- R24: the five reset values, in every state after reset: for every capacity and every filling of the three arrays, the
unspecified bytes. -/
def Obligations.ResetValues : Prop :=
  ∀ (cfg : Config) (f : Nat → Byte),
    let s := State.resetWith cfg f
    s.KLEN = 0 ∧ s.LEN = 0 ∧ s.SRND = 0 ∧ s.RES = .ok ∧ s.HALT = false ∧
    (∀ a, a < 32 → s.K.read a = f a) ∧ (∀ a, 0x00100 ≤ a → a < 0x001F0 → s.RK.read a = f a) ∧
    (∀ a, 0x10000 ≤ a → a < 0x10000 + 16 * cfg.nblk → s.D.read a = f a)

/-- The spec's inference in R24: in no state after reset can a command use an unspecified byte: key commands raise
E_KEYSIZE, the primitives act on no byte, ARK raises F_ROUND. `State.reset` is one of these states, with the model's
choice of NBLK and filling (log entries 3 and 4). -/
def Obligations.ResetStateIsHarmless : Prop :=
  (∀ (cfg : Config) (f : Nat → Byte),
    let s := State.resetWith cfg f
    (∀ i ∈ [Instr.kexp, Instr.enc, Instr.dec], exec i s = .next { s with RES := .eKeysize }) ∧
    (∀ i ∈ [Instr.subbytes, Instr.invsubbytes, Instr.shiftrows, Instr.invshiftrows, Instr.mixcolumns,
        Instr.invmixcolumns], exec i s = .next { s with RES := .ok }) ∧
    (∀ r, exec (.ark r) s = .next { s with RES := .fRound, HALT := true })) ∧
  ∃ (cfg : Config) (f : Nat → Byte), cfg.legal ∧ State.reset = State.resetWith cfg f

/-! ### Invariants -/

/-- The invariant holds after reset, for every legal capacity and every filling of the arrays, and so does what `SRND`
says of `RK`. -/
def Obligations.LegalAtReset : Prop :=
  State.reset.Inv ∧ ∀ (cfg : Config) (f : Nat → Byte), cfg.legal → (State.resetWith cfg f).Inv ∧
    (State.resetWith cfg f).scheduleHeld

/-- R6, R11, R14, R15, R16, R17, R150: every step keeps the invariant: NBLK in range, the memories in canonical form over
exactly their addresses, `SRND` one of 0, 10, 12, 14, and `HALT` set exactly when `RES` holds a fatal code. -/
def Obligations.StepKeepsTheInvariant : Prop :=
  ∀ s t : State, s.Inv → step s = .next t → t.Inv

/-- R16: every step keeps "a non-zero value `Nr` means `RK[0..16×(Nr+1))` is a schedule of `Nr` rounds". -/
def Obligations.StepKeepsTheSchedule : Prop :=
  ∀ s t : State, s.Inv → s.scheduleHeld → step s = .next t → t.scheduleHeld

/-- Whatever transactions the host issues, from any reset state, every state reached is legal and its schedule is one. -/
def Obligations.EveryReachableStateIsLegal : Prop :=
  ∀ (cfg : Config) (f : Nat → Byte) (t : State), cfg.legal → Reaches (State.resetWith cfg f) t →
    t.Inv ∧ t.scheduleHeld

/-! ### Residue -/

/-- R165, R175: what a Reset leaves in `K`, `RK` and `D`. Every byte is the free value of this reset, of all that the engine
held before, and of its address; one function of those three answers, in every legal state, the byte that stood there, so
that keeping the old contents is an instance; and any filling is what the arrays then read as. The model neither erases nor
keeps them; that the free value depends on these three and on nothing else is the model's choice (log entry 5). -/
def Obligations.ResetMayKeepOrReplaceTheArrays : Prop :=
  let inArrays := fun (s : State) (a : Nat) =>
    a ≤ 0x0001F ∨ (0x00100 ≤ a ∧ a ≤ 0x001EF) ∨ (0x10000 ≤ a ∧ a < 0x10000 + s.dbufBytes)
  (∀ (s : State) (rest : List Txn), s.Inv → s.pending = .reset :: rest →
    let after := fun f : Nat → Byte => resetFilled f { s with pending := rest }
    step s = .next (after (Config.resetByte s.resets (heldBytes s))) ∧
    (∀ t, step s = .next t → ∀ a, inArrays s a → memRead t a = Config.resetByte s.resets (heldBytes s) a) ∧
    ∀ (f : Nat → Byte) (a : Nat), inArrays s a → memRead (after f) a = f a) ∧
  ∃ keep : Nat → List (Nat × Byte) → Nat → Byte, ∀ s : State, s.Inv →
    let kept := resetFilled (keep s.resets (heldBytes s)) s
    (∀ a, inArrays s a → keep s.resets (heldBytes s) a = memRead s a) ∧
    kept.K = s.K ∧ kept.RK = s.RK ∧ kept.D = s.D
end

