-- ==== Sys2Proof/Laws/Memory.lean ====
section
/-! SUPPORT. What the memory accesses do: reads after writes, bytes outside a write, and the canonical form kept. -/

namespace Sys2Proof.Machine

/-- Changing bytes but no address changes just what is looked up. -/
theorem lookup_map_byte (m : Memory) (h : Nat → Byte → Byte) (a : Nat) :
    (m.map fun c => (c.1, h c.1 c.2)).lookup a = (m.lookup a).map (h a) := by
  induction m with
  | nil => rfl
  | cons c m ih =>
    obtain ⟨b, v⟩ := c
    by_cases e : a = b
    · subst e; simp [List.lookup]
    · simp [List.lookup, beq_eq_false_iff_ne.2 e, ih]

theorem write_eq_map (m : Memory) (a : Nat) (v : Byte) :
    m.write a v = m.map fun c => (c.1, if c.1 = a then v else c.2) := by
  refine List.map_congr_left fun c _ => ?_
  split <;> rfl

theorem store_eq_map (m : Memory) (base : Nat) (bs : List Byte) :
    m.store base bs = m.map fun c => (c.1, if base ≤ c.1 then bs.getD (c.1 - base) c.2 else c.2) := by
  refine List.map_congr_left fun c _ => ?_
  split <;> rfl

theorem lookup_write (m : Memory) (a : Nat) (v : Byte) (x : Nat) :
    (m.write a v).lookup x = (m.lookup x).map fun w => if x = a then v else w := by
  rw [write_eq_map, lookup_map_byte m fun b w => if b = a then v else w]

theorem lookup_store (m : Memory) (base : Nat) (bs : List Byte) (x : Nat) :
    (m.store base bs).lookup x = (m.lookup x).map fun w => if base ≤ x then bs.getD (x - base) w else w := by
  rw [store_eq_map, lookup_map_byte m fun b w => if base ≤ b then bs.getD (b - base) w else w]

/-! ### The canonical form -/

@[simp] theorem write_addresses (m : Memory) (a : Nat) (v : Byte) :
    (m.write a v).map Prod.fst = m.map Prod.fst := by
  rw [write_eq_map, List.map_map]; rfl

@[simp] theorem store_addresses (m : Memory) (base : Nat) (bs : List Byte) :
    (m.store base bs).map Prod.fst = m.map Prod.fst := by
  rw [store_eq_map, List.map_map]; rfl

@[simp] theorem fill_spans (base n : Nat) (f : Nat → Byte) : (Memory.fill base n f).spans base n := by
  simp [Memory.fill, Memory.spans, Function.comp_def]

/-- A memory that lists exactly its window is in canonical form. -/
theorem wf_of_spans {m : Memory} {base n : Nat} (h : m.spans base n) : m.wf := by
  have : (m.map Prod.fst).Pairwise (· < ·) := by rw [h]; exact List.pairwise_lt_range'
  simpa [Memory.wf, List.pairwise_map] using this

theorem write_spans {m : Memory} {base n : Nat} (h : m.spans base n) (a : Nat) (v : Byte) :
    (m.write a v).spans base n := by simpa [Memory.spans] using h

theorem store_spans {m : Memory} {base n : Nat} (h : m.spans base n) (b : Nat) (bs : List Byte) :
    (m.store b bs).spans base n := by simpa [Memory.spans] using h

theorem write_wf {m : Memory} (h : m.wf) (a : Nat) (v : Byte) : (m.write a v).wf := by
  rw [write_eq_map]; simpa [Memory.wf, List.pairwise_map] using h

theorem store_wf {m : Memory} (h : m.wf) (b : Nat) (bs : List Byte) : (m.store b bs).wf := by
  rw [store_eq_map]; simpa [Memory.wf, List.pairwise_map] using h

theorem fill_wf (base n : Nat) (f : Nat → Byte) : (Memory.fill base n f).wf := wf_of_spans (fill_spans base n f)

/-- After reset the three arrays are in canonical form, for every capacity and filling. -/
theorem resetWith_wf (cfg : Config) (f : Nat → Byte) :
    (State.resetWith cfg f).K.wf ∧ (State.resetWith cfg f).RK.wf ∧ (State.resetWith cfg f).D.wf :=
  ⟨fill_wf _ _ _, fill_wf _ _ _, fill_wf _ _ _⟩

theorem reset_wf : State.reset.K.wf ∧ State.reset.RK.wf ∧ State.reset.D.wf := resetWith_wf _ _

/-- Every address of the window is listed. -/
theorem lookup_of_spans {m : Memory} {base n a : Nat} (h : m.spans base n) (h1 : base ≤ a) (h2 : a < base + n) :
    ∃ v, m.lookup a = some v := by
  have hm : a ∈ m.map Prod.fst := by rw [h]; simp [List.mem_range'_1]; omega
  clear h
  induction m with
  | nil => simp at hm
  | cons c m ih =>
    obtain ⟨b, w⟩ := c
    by_cases e : a = b
    · exact ⟨w, by simp [List.lookup, e]⟩
    · obtain ⟨v, hv⟩ := ih (by simpa [e] using hm)
      exact ⟨v, by simp [List.lookup, beq_eq_false_iff_ne.2 e, hv]⟩

/-! ### Reads -/

theorem read_fill {base n a : Nat} (f : Nat → Byte) (h1 : base ≤ a) (h2 : a < base + n) :
    (Memory.fill base n f).read a = f a := by
  have key : ∀ l : List Nat, a ∈ l → (l.map fun x => ((x, f x) : Host.Cell)).lookup a = some (f a) := by
    intro l
    induction l with
    | nil => simp
    | cons x l ih =>
      intro h
      by_cases e : a = x
      · simp [e]
      · simpa [List.lookup, beq_eq_false_iff_ne.2 e] using ih (by simpa [e] using h)
  simp [Memory.read, Memory.fill, key (List.range' base n) (by simp [List.mem_range'_1]; omega)]

theorem read_write_same {m : Memory} {base n a : Nat} (h : m.spans base n) (h1 : base ≤ a) (h2 : a < base + n)
    (v : Byte) : (m.write a v).read a = v := by
  obtain ⟨w, hw⟩ := lookup_of_spans h h1 h2
  simp [Memory.read, lookup_write, hw]

theorem read_write_other (m : Memory) {a x : Nat} (h : x ≠ a) (v : Byte) : (m.write a v).read x = m.read x := by
  simp [Memory.read, lookup_write, h]

/-- A byte inside a store. -/
theorem read_store_inside {m : Memory} {B N base a : Nat} {bs : List Byte} (h : m.spans B N) (h1 : B ≤ a)
    (h2 : a < B + N) (h3 : base ≤ a) (h4 : a < base + bs.length) :
    (m.store base bs).read a = bs.getD (a - base) 0 := by
  obtain ⟨w, hw⟩ := lookup_of_spans h h1 h2
  have hlt : a - base < bs.length := by omega
  simp [Memory.read, lookup_store, hw, h3, List.getD, List.getElem?_eq_getElem hlt]

/-- A byte outside a store. -/
theorem read_store_outside (m : Memory) {base a : Nat} {bs : List Byte} (h : a < base ∨ base + bs.length ≤ a) :
    (m.store base bs).read a = m.read a := by
  simp only [Memory.read, lookup_store]
  rcases h with h | h
  · simp [Nat.not_le.2 h]
  · have : bs.length ≤ a - base := by omega
    simp [List.getD, List.getElem?_eq_none this]

/-! ### Loads -/

@[simp] theorem load_length (m : Memory) (base n : Nat) : (m.load base n).length = n := by simp [Memory.load]

theorem load_getD (m : Memory) (base n i : Nat) (h : i < n) : (m.load base n).getD i 0 = m.read (base + i) := by
  simp [Memory.load, List.getD, h]

theorem load_congr {m m' : Memory} {base n : Nat} (h : ∀ a, base ≤ a → a < base + n → m.read a = m'.read a) :
    m.load base n = m'.load base n := by
  refine List.map_congr_left fun i hi => h _ (by omega) ?_
  have := List.mem_range.1 hi; omega

theorem read_eq_of_load_eq {m m' : Memory} {base n : Nat} (h : m.load base n = m'.load base n) {a : Nat}
    (h1 : base ≤ a) (h2 : a < base + n) : m.read a = m'.read a := by
  have e := congrArg (fun l => l.getD (a - base) 0) h
  simp only [load_getD _ _ _ _ (show a - base < n by omega)] at e
  rwa [show base + (a - base) = a by omega] at e

/-- A part of a load is a load. -/
theorem take_drop_load (m : Memory) {base n a k : Nat} (h : a + k ≤ n) :
    ((m.load base n).drop a).take k = m.load (base + a) k := by
  apply List.ext_getElem
  · simp; omega
  · intro i h1 h2
    simp [Memory.load, Nat.add_assoc]

/-- A load inside what a store wrote is the part of the bytes stored. -/
theorem load_store_inside {m : Memory} {B N base a k : Nat} {bs : List Byte} (h : m.spans B N) (h1 : B ≤ base)
    (h2 : base + bs.length ≤ B + N) (h3 : a + k ≤ bs.length) :
    (m.store base bs).load (base + a) k = (bs.drop a).take k := by
  apply List.ext_getElem
  · simp; omega
  · intro i hi h'
    have hi' : i < k := by simpa using hi
    simp only [Memory.load, List.getElem_map, List.getElem_range]
    rw [read_store_inside h (by omega) (by omega) (by omega) (by omega)]
    have : base + a + i - base = a + i := by omega
    have hlt : a + i < bs.length := by omega
    simp [this, List.getD, List.getElem?_eq_getElem hlt]

/-- What a store wrote is what a load reads. -/
theorem load_store_same {m : Memory} {B N base : Nat} {bs : List Byte} (h : m.spans B N) (h1 : B ≤ base)
    (h2 : base + bs.length ≤ B + N) : (m.store base bs).load base bs.length = bs := by
  have := load_store_inside (a := 0) (k := bs.length) h h1 h2 (by omega)
  simpa using this

theorem load_store_outside (m : Memory) {base a k : Nat} {bs : List Byte} (h : a + k ≤ base ∨ base + bs.length ≤ a) :
    (m.store base bs).load a k = m.load a k :=
  load_congr fun _ _ _ => read_store_outside m (by omega)

/-- Two memories over one window with the same bytes are the same data. -/
theorem eq_of_spans_of_read {m m' : Memory} {base n : Nat} (h : m.spans base n) (h' : m'.spans base n)
    (e : ∀ a, base ≤ a → a < base + n → m.read a = m'.read a) : m = m' := by
  induction n generalizing m m' base with
  | zero =>
    simp [Memory.spans] at h h'; simp [h, h']
  | succ n ih =>
    rw [Memory.spans, List.range'_succ] at h h'
    cases m with
    | nil => simp at h
    | cons c m =>
      cases m' with
      | nil => simp at h'
      | cons c' m' =>
        obtain ⟨a, v⟩ := c
        obtain ⟨a', v'⟩ := c'
        simp only [List.map_cons, List.cons.injEq] at h h'
        obtain ⟨rfl, hm⟩ := h
        obtain ⟨rfl, hm'⟩ := h'
        have hv := e a' (by omega) (by omega)
        simp [Memory.read, List.lookup] at hv
        subst hv
        congr 1
        refine ih hm hm' fun x h1 h2 => ?_
        have := e x (by omega) (by omega)
        simpa [Memory.read, List.lookup, beq_eq_false_iff_ne.2 (show x ≠ a' by omega)] using this

/-- Storing back what stands there changes nothing. -/
theorem store_nil (m : Memory) (base : Nat) : m.store base [] = m := by
  simp [Memory.store]

/-! ### Reset -/

/-- A window filled with the bytes a memory over it holds is that memory. -/
theorem fill_eq_of_read {m : Memory} {base n : Nat} {f : Nat → Byte} (h : m.spans base n)
    (e : ∀ a, base ≤ a → a < base + n → f a = m.read a) : Memory.fill base n f = m :=
  eq_of_spans_of_read (fill_spans base n f) h fun a h1 h2 => (read_fill f h1 h2).trans (e a h1 h2)

/-- A Reset that fills the arrays with the bytes they held keeps them: "keep their old contents" is an instance
(R165). -/
theorem resetFilled_held {s : State} (h : s.arraysSpan) :
    (resetFilled (memRead s) s).K = s.K ∧ (resetFilled (memRead s) s).RK = s.RK ∧
      (resetFilled (memRead s) s).D = s.D := by
  refine ⟨fill_eq_of_read h.1 fun a _ h2 => ?_, fill_eq_of_read h.2.1 fun a h1 h2 => ?_,
    fill_eq_of_read h.2.2 fun a h1 h2 => ?_⟩
  · have : a ≤ 0x1F := by simp only [kBase, kBytes] at h2; omega
    unfold memRead; rw [if_pos this]
  · have : 0x100 ≤ a ∧ a ≤ 0x1EF := by simp only [rkBase, rkBytes] at h1 h2; omega
    unfold memRead
    iterate 7 rw [if_neg (by omega)]
    rw [if_pos this]
  · have : 0x10000 ≤ a ∧ a < 0x10000 + s.dbufBytes := ⟨h1, h2⟩
    unfold memRead
    iterate 8 rw [if_neg (by omega)]
    rw [if_pos this]

/-- An address outside the window is not listed. -/
theorem lookup_outside {m : Memory} {base n a : Nat} (h : m.spans base n) (ha : a < base ∨ base + n ≤ a) :
    m.lookup a = none := by
  rw [List.lookup_eq_none_iff]
  intro c hc
  have hm : c.1 ∈ List.range' base n := h ▸ List.mem_map_of_mem hc
  rw [List.mem_range'_1] at hm
  simp; omega

/-- What a listed address reads as is what the list holds. -/
theorem lookup_eq_read {m : Memory} {base n a : Nat} (h : m.spans base n) (h1 : base ≤ a) (h2 : a < base + n) :
    m.lookup a = some (m.read a) := by
  obtain ⟨v, hv⟩ := lookup_of_spans h h1 h2
  simp [Memory.read, hv]

/-- The bytes held name every byte of the three arrays: nothing of them is lost to the free value of a Reset. -/
theorem heldBytes_lookup {s : State} (h : s.arraysSpan) {a : Nat}
    (ha : a ≤ 0x1F ∨ (0x100 ≤ a ∧ a ≤ 0x1EF) ∨ (0x10000 ≤ a ∧ a < 0x10000 + s.dbufBytes)) :
    (heldBytes s).lookup a = some (memRead s a) := by
  obtain ⟨hK, hR, hD⟩ := h
  unfold memRead
  rcases ha with ha | ha | ha
  · have e := lookup_eq_read hK (a := a) (by simp) (by simp only [kBase, kBytes]; omega)
    rw [if_pos ha]
    simp [heldBytes, List.lookup_append, e]
  all_goals
    have eK := lookup_outside hK (a := a) (by simp only [kBase, kBytes]; omega)
    have ne : ∀ b : Nat, b ≤ 0x26 → (a == b) = false := fun b hb => beq_eq_false_iff_ne.2 (by omega)
  · have e := lookup_eq_read hR (a := a) ha.1 (by simp only [rkBase, rkBytes]; omega)
    iterate 7 rw [if_neg (by omega)]
    rw [if_pos ha]
    simp [heldBytes, List.lookup_append, List.lookup_cons, eK, e, ne]
  · have e := lookup_eq_read hD (a := a) ha.1 ha.2
    have eR := lookup_outside hR (a := a) (by simp only [rkBase, rkBytes]; omega)
    iterate 8 rw [if_neg (by omega)]
    rw [if_pos ha]
    simp [heldBytes, List.lookup_append, List.lookup_cons, eK, eR, e, ne]

/-- What the arrays read as after a Reset: its filling. -/
theorem memRead_resetFilled (f : Nat → Byte) (s : State) {a : Nat}
    (ha : a ≤ 0x1F ∨ (0x100 ≤ a ∧ a ≤ 0x1EF) ∨ (0x10000 ≤ a ∧ a < 0x10000 + s.dbufBytes)) :
    memRead (resetFilled f s) a = f a := by
  unfold memRead
  rcases ha with ha | ha | ha
  · rw [if_pos ha]
    exact read_fill f (by simp) (by simp only [kBase, kBytes]; omega)
  · iterate 7 rw [if_neg (by omega)]
    rw [if_pos ha]
    exact read_fill f ha.1 (by simp only [rkBase, rkBytes]; omega)
  · iterate 8 rw [if_neg (by omega)]
    rw [if_pos (by exact ha)]
    exact read_fill f ha.1 ha.2

end Sys2Proof.Machine
end

