-- ==== Sys2Proof/Laws/State.lean ====
section
/-! SUPPORT. One lemma per field per update of the state, so that no later proof unfolds a record update. -/

namespace Sys2Proof.Machine

@[simp] theorem raise_K (e : ResCode) (s : State) : (raise e s).K = s.K := rfl
@[simp] theorem raise_KLEN (e : ResCode) (s : State) : (raise e s).KLEN = s.KLEN := rfl
@[simp] theorem raise_LEN (e : ResCode) (s : State) : (raise e s).LEN = s.LEN := rfl
@[simp] theorem raise_D (e : ResCode) (s : State) : (raise e s).D = s.D := rfl
@[simp] theorem raise_RK (e : ResCode) (s : State) : (raise e s).RK = s.RK := rfl
@[simp] theorem raise_SRND (e : ResCode) (s : State) : (raise e s).SRND = s.SRND := rfl
@[simp] theorem raise_RES (e : ResCode) (s : State) : (raise e s).RES = e := rfl
@[simp] theorem raise_HALT (e : ResCode) (s : State) : (raise e s).HALT = (s.HALT || e.fatal) := rfl
@[simp] theorem raise_cfg (e : ResCode) (s : State) : (raise e s).cfg = s.cfg := rfl
@[simp] theorem raise_pending (e : ResCode) (s : State) : (raise e s).pending = s.pending := rfl
@[simp] theorem raise_returned (e : ResCode) (s : State) : (raise e s).returned = s.returned := rfl
@[simp] theorem raise_resets (e : ResCode) (s : State) : (raise e s).resets = s.resets := rfl

@[simp] theorem succeed_K (s : State) : (succeed s).K = s.K := rfl
@[simp] theorem succeed_KLEN (s : State) : (succeed s).KLEN = s.KLEN := rfl
@[simp] theorem succeed_LEN (s : State) : (succeed s).LEN = s.LEN := rfl
@[simp] theorem succeed_D (s : State) : (succeed s).D = s.D := rfl
@[simp] theorem succeed_RK (s : State) : (succeed s).RK = s.RK := rfl
@[simp] theorem succeed_SRND (s : State) : (succeed s).SRND = s.SRND := rfl
@[simp] theorem succeed_RES (s : State) : (succeed s).RES = .ok := rfl
@[simp] theorem succeed_HALT (s : State) : (succeed s).HALT = s.HALT := rfl
@[simp] theorem succeed_cfg (s : State) : (succeed s).cfg = s.cfg := rfl
@[simp] theorem succeed_pending (s : State) : (succeed s).pending = s.pending := rfl
@[simp] theorem succeed_returned (s : State) : (succeed s).returned = s.returned := rfl
@[simp] theorem succeed_resets (s : State) : (succeed s).resets = s.resets := rfl

@[simp] theorem resetFilled_K (f : Nat → Byte) (s : State) : (resetFilled f s).K = Memory.fill kBase kBytes f := rfl
@[simp] theorem resetFilled_KLEN (f : Nat → Byte) (s : State) : (resetFilled f s).KLEN = 0 := rfl
@[simp] theorem resetFilled_LEN (f : Nat → Byte) (s : State) : (resetFilled f s).LEN = 0 := rfl
@[simp] theorem resetFilled_D (f : Nat → Byte) (s : State) : (resetFilled f s).D = Memory.fill dBase s.dbufBytes f := rfl
@[simp] theorem resetFilled_RK (f : Nat → Byte) (s : State) : (resetFilled f s).RK = Memory.fill rkBase rkBytes f := rfl
@[simp] theorem resetFilled_SRND (f : Nat → Byte) (s : State) : (resetFilled f s).SRND = 0 := rfl
@[simp] theorem resetFilled_RES (f : Nat → Byte) (s : State) : (resetFilled f s).RES = .ok := rfl
@[simp] theorem resetFilled_HALT (f : Nat → Byte) (s : State) : (resetFilled f s).HALT = false := rfl
@[simp] theorem resetFilled_cfg (f : Nat → Byte) (s : State) : (resetFilled f s).cfg = s.cfg := rfl
@[simp] theorem resetFilled_pending (f : Nat → Byte) (s : State) : (resetFilled f s).pending = s.pending := rfl
@[simp] theorem resetFilled_returned (f : Nat → Byte) (s : State) : (resetFilled f s).returned = s.returned := rfl
@[simp] theorem resetFilled_resets (f : Nat → Byte) (s : State) : (resetFilled f s).resets = s.resets + 1 := rfl

@[simp] theorem resetEvent_K (s : State) : (resetEvent s).K = Memory.fill kBase kBytes (Config.resetByte s.resets (heldBytes s)) := rfl
@[simp] theorem resetEvent_KLEN (s : State) : (resetEvent s).KLEN = 0 := rfl
@[simp] theorem resetEvent_LEN (s : State) : (resetEvent s).LEN = 0 := rfl
@[simp] theorem resetEvent_D (s : State) : (resetEvent s).D = Memory.fill dBase s.dbufBytes (Config.resetByte s.resets (heldBytes s)) := rfl
@[simp] theorem resetEvent_RK (s : State) : (resetEvent s).RK = Memory.fill rkBase rkBytes (Config.resetByte s.resets (heldBytes s)) := rfl
@[simp] theorem resetEvent_SRND (s : State) : (resetEvent s).SRND = 0 := rfl
@[simp] theorem resetEvent_RES (s : State) : (resetEvent s).RES = .ok := rfl
@[simp] theorem resetEvent_HALT (s : State) : (resetEvent s).HALT = false := rfl
@[simp] theorem resetEvent_cfg (s : State) : (resetEvent s).cfg = s.cfg := rfl
@[simp] theorem resetEvent_pending (s : State) : (resetEvent s).pending = s.pending := rfl
@[simp] theorem resetEvent_returned (s : State) : (resetEvent s).returned = s.returned := rfl
@[simp] theorem resetEvent_resets (s : State) : (resetEvent s).resets = s.resets + 1 := rfl

@[simp] theorem onData_K (f : List Byte → List Byte) (s : State) : (onData f s).K = s.K := rfl
@[simp] theorem onData_KLEN (f : List Byte → List Byte) (s : State) : (onData f s).KLEN = s.KLEN := rfl
@[simp] theorem onData_LEN (f : List Byte → List Byte) (s : State) : (onData f s).LEN = s.LEN := rfl
@[simp] theorem onData_D (f : List Byte → List Byte) (s : State) : (onData f s).D = s.D.store dBase (mapBlocks f (data s s.LEN.toNat)) := rfl
@[simp] theorem onData_RK (f : List Byte → List Byte) (s : State) : (onData f s).RK = s.RK := rfl
@[simp] theorem onData_SRND (f : List Byte → List Byte) (s : State) : (onData f s).SRND = s.SRND := rfl
@[simp] theorem onData_RES (f : List Byte → List Byte) (s : State) : (onData f s).RES = s.RES := rfl
@[simp] theorem onData_HALT (f : List Byte → List Byte) (s : State) : (onData f s).HALT = s.HALT := rfl
@[simp] theorem onData_cfg (f : List Byte → List Byte) (s : State) : (onData f s).cfg = s.cfg := rfl
@[simp] theorem onData_pending (f : List Byte → List Byte) (s : State) : (onData f s).pending = s.pending := rfl
@[simp] theorem onData_returned (f : List Byte → List Byte) (s : State) : (onData f s).returned = s.returned := rfl
@[simp] theorem onData_resets (f : List Byte → List Byte) (s : State) : (onData f s).resets = s.resets := rfl

@[simp] theorem expandKey_K (s : State) : (expandKey s).K = s.K := rfl
@[simp] theorem expandKey_KLEN (s : State) : (expandKey s).KLEN = s.KLEN := rfl
@[simp] theorem expandKey_LEN (s : State) : (expandKey s).LEN = s.LEN := rfl
@[simp] theorem expandKey_D (s : State) : (expandKey s).D = s.D := rfl
@[simp] theorem expandKey_RK (s : State) : (expandKey s).RK = s.RK.store rkBase (expand (key s)) := rfl
@[simp] theorem expandKey_SRND (s : State) : (expandKey s).SRND = BitVec.ofNat 8 (rounds s) := rfl
@[simp] theorem expandKey_RES (s : State) : (expandKey s).RES = s.RES := rfl
@[simp] theorem expandKey_HALT (s : State) : (expandKey s).HALT = s.HALT := rfl
@[simp] theorem expandKey_cfg (s : State) : (expandKey s).cfg = s.cfg := rfl
@[simp] theorem expandKey_pending (s : State) : (expandKey s).pending = s.pending := rfl
@[simp] theorem expandKey_returned (s : State) : (expandKey s).returned = s.returned := rfl
@[simp] theorem expandKey_resets (s : State) : (expandKey s).resets = s.resets := rfl

@[simp] theorem padData_K (s : State) : (padData s).K = s.K := rfl
@[simp] theorem padData_KLEN (s : State) : (padData s).KLEN = s.KLEN := rfl
@[simp] theorem padData_LEN (s : State) : (padData s).LEN = BitVec.ofNat 16 (ceil16 s.LEN.toNat) := rfl
@[simp] theorem padData_D (s : State) : (padData s).D = s.D.store (dBase + s.LEN.toNat) (List.replicate (ceil16 s.LEN.toNat - s.LEN.toNat) 0x00) := rfl
@[simp] theorem padData_RK (s : State) : (padData s).RK = s.RK := rfl
@[simp] theorem padData_SRND (s : State) : (padData s).SRND = s.SRND := rfl
@[simp] theorem padData_RES (s : State) : (padData s).RES = s.RES := rfl
@[simp] theorem padData_HALT (s : State) : (padData s).HALT = s.HALT := rfl
@[simp] theorem padData_cfg (s : State) : (padData s).cfg = s.cfg := rfl
@[simp] theorem padData_pending (s : State) : (padData s).pending = s.pending := rfl
@[simp] theorem padData_returned (s : State) : (padData s).returned = s.returned := rfl
@[simp] theorem padData_resets (s : State) : (padData s).resets = s.resets := rfl

@[simp] theorem cipherEffect_K (g : List Byte → List Byte → Nat → List Byte) (s : State) : (cipherEffect g s).K = s.K := rfl
@[simp] theorem cipherEffect_KLEN (g : List Byte → List Byte → Nat → List Byte) (s : State) : (cipherEffect g s).KLEN = s.KLEN := rfl
@[simp] theorem cipherEffect_LEN (g : List Byte → List Byte → Nat → List Byte) (s : State) : (cipherEffect g s).LEN = BitVec.ofNat 16 (ceil16 s.LEN.toNat) := rfl
@[simp] theorem cipherEffect_RK (g : List Byte → List Byte → Nat → List Byte) (s : State) : (cipherEffect g s).RK = s.RK.store rkBase (expand (key s)) := rfl
@[simp] theorem cipherEffect_SRND (g : List Byte → List Byte → Nat → List Byte) (s : State) : (cipherEffect g s).SRND = BitVec.ofNat 8 (rounds s) := rfl
@[simp] theorem cipherEffect_RES (g : List Byte → List Byte → Nat → List Byte) (s : State) : (cipherEffect g s).RES = s.RES := rfl
@[simp] theorem cipherEffect_HALT (g : List Byte → List Byte → Nat → List Byte) (s : State) : (cipherEffect g s).HALT = s.HALT := rfl
@[simp] theorem cipherEffect_cfg (g : List Byte → List Byte → Nat → List Byte) (s : State) : (cipherEffect g s).cfg = s.cfg := rfl
@[simp] theorem cipherEffect_pending (g : List Byte → List Byte → Nat → List Byte) (s : State) : (cipherEffect g s).pending = s.pending := rfl
@[simp] theorem cipherEffect_returned (g : List Byte → List Byte → Nat → List Byte) (s : State) : (cipherEffect g s).returned = s.returned := rfl
@[simp] theorem cipherEffect_resets (g : List Byte → List Byte → Nat → List Byte) (s : State) : (cipherEffect g s).resets = s.resets := rfl

@[simp] theorem issue_K (xs : List Txn) (s : State) : (issue xs s).K = s.K := rfl
@[simp] theorem issue_KLEN (xs : List Txn) (s : State) : (issue xs s).KLEN = s.KLEN := rfl
@[simp] theorem issue_LEN (xs : List Txn) (s : State) : (issue xs s).LEN = s.LEN := rfl
@[simp] theorem issue_D (xs : List Txn) (s : State) : (issue xs s).D = s.D := rfl
@[simp] theorem issue_RK (xs : List Txn) (s : State) : (issue xs s).RK = s.RK := rfl
@[simp] theorem issue_SRND (xs : List Txn) (s : State) : (issue xs s).SRND = s.SRND := rfl
@[simp] theorem issue_RES (xs : List Txn) (s : State) : (issue xs s).RES = s.RES := rfl
@[simp] theorem issue_HALT (xs : List Txn) (s : State) : (issue xs s).HALT = s.HALT := rfl
@[simp] theorem issue_cfg (xs : List Txn) (s : State) : (issue xs s).cfg = s.cfg := rfl
@[simp] theorem issue_pending (xs : List Txn) (s : State) : (issue xs s).pending = s.pending ++ xs := rfl
@[simp] theorem issue_returned (xs : List Txn) (s : State) : (issue xs s).returned = s.returned := rfl
@[simp] theorem issue_resets (xs : List Txn) (s : State) : (issue xs s).resets = s.resets := rfl

@[simp] theorem dbufBytes_raise (e : ResCode) (s : State) : (raise e s).dbufBytes = s.dbufBytes := rfl
@[simp] theorem dbufBytes_succeed (s : State) : (succeed s).dbufBytes = s.dbufBytes := rfl

end Sys2Proof.Machine
end

