-- ==== Sys2Proof/Laws/Blocks.lean ====
section
/-! SUPPORT. MapBlocks and the round primitives on lists: lengths, single blocks, composition. -/

namespace Sys2Proof.Machine

/-- `f` takes blocks to blocks. -/
abbrev KeepsBlocks (f : List Byte → List Byte) : Prop := ∀ b : List Byte, b.length = 16 → (f b).length = 16

/-! ### The primitives keep blocks -/

@[simp] theorem subBytes_length (m : Mode) (s : List Byte) : (subBytes m s).length = s.length := by simp [subBytes]

@[simp] theorem shiftRows_length (m : Mode) (s : List Byte) : (shiftRows m s).length = 16 := by simp [shiftRows]

@[simp] theorem mixColumns_length (m : Mode) (s : List Byte) : (mixColumns m s).length = 16 := by simp [mixColumns]

@[simp] theorem xorBytes_length (a b : List Byte) : (xorBytes a b).length = min a.length b.length := by simp [xorBytes]

@[simp] theorem addRoundKey_length (s k : List Byte) : (addRoundKey s k).length = min s.length k.length := by
  simp [addRoundKey]

theorem subBytes_keeps (m : Mode) : KeepsBlocks (subBytes m) := fun _ h => by simpa using h

theorem shiftRows_keeps (m : Mode) : KeepsBlocks (shiftRows m) := fun _ _ => by simp

theorem mixColumns_keeps (m : Mode) : KeepsBlocks (mixColumns m) := fun _ _ => by simp

theorem addRoundKey_keeps {k : List Byte} (hk : k.length = 16) : KeepsBlocks fun b => addRoundKey b k :=
  fun _ h => by simp [h, hk]

@[simp] theorem roundKey_length (s : State) (r : Nat) : (roundKey s r).length = 16 := by simp [roundKey]

/-! ### MapBlocks -/

theorem mapBlocksN_length {f : List Byte → List Byte} (hf : KeepsBlocks f) :
    ∀ (n : Nat) (B : List Byte), 16 * n ≤ B.length → (mapBlocksN f n B).length = 16 * n
  | 0, _, _ => rfl
  | n + 1, B, h => by
    have h1 : (f (B.take 16)).length = 16 := hf _ (by simp; omega)
    have h2 := mapBlocksN_length hf n (B.drop 16) (by simp; omega)
    simp [mapBlocksN, h1, h2]; omega

theorem mapBlocks_length {f : List Byte → List Byte} (hf : KeepsBlocks f) {B : List Byte} (h : B.length % 16 = 0) :
    (mapBlocks f B).length = B.length := by
  rw [mapBlocks, mapBlocksN_length hf _ _ (by omega)]; omega

@[simp] theorem mapBlocks_nil (f : List Byte → List Byte) : mapBlocks f [] = [] := rfl

theorem mapBlocksN_block {f : List Byte → List Byte} (hf : KeepsBlocks f) :
    ∀ (n b : Nat) (B : List Byte), 16 * n ≤ B.length → b < n →
      ((mapBlocksN f n B).drop (16 * b)).take 16 = f ((B.drop (16 * b)).take 16)
  | n + 1, 0, B, h, _ => by
    have h1 : (f (B.take 16)).length = 16 := hf _ (by simp; omega)
    simp [mapBlocksN, h1]
  | n + 1, b + 1, B, h, hb => by
    have h1 : (f (B.take 16)).length = 16 := hf _ (by simp; omega)
    have ih := mapBlocksN_block hf n b (B.drop 16) (by simp; omega) (by omega)
    rw [List.drop_drop] at ih
    have e : 16 * (b + 1) = 16 + 16 * b := by omega
    rw [e, ← ih, mapBlocksN, List.drop_append, h1, List.drop_eq_nil_of_le (by omega)]
    simp

/-- Block `b` of the result is `f` of block `b` (R95). -/
theorem mapBlocks_block {f : List Byte → List Byte} (hf : KeepsBlocks f) {B : List Byte} (h : B.length % 16 = 0)
    {b : Nat} (hb : 16 * b < B.length) :
    ((mapBlocks f B).drop (16 * b)).take 16 = f ((B.drop (16 * b)).take 16) :=
  mapBlocksN_block hf _ _ _ (by omega) (by omega)

theorem mapBlocksN_comp {f g : List Byte → List Byte} (hg : KeepsBlocks g) :
    ∀ (n : Nat) (B : List Byte), 16 * n ≤ B.length →
      mapBlocksN f n (mapBlocksN g n B) = mapBlocksN (fun b => f (g b)) n B
  | 0, _, _ => rfl
  | n + 1, B, h => by
    have h1 : (g (B.take 16)).length = 16 := hg _ (by simp; omega)
    simp only [mapBlocksN]
    rw [List.take_append_of_le_length (by omega), List.take_of_length_le (by omega), List.drop_append, h1,
      List.drop_eq_nil_of_le (by omega)]
    simp only [List.nil_append, Nat.sub_self, List.drop_zero]
    rw [mapBlocksN_comp hg n _ (by simp; omega)]

theorem mapBlocks_comp {f g : List Byte → List Byte} (hg : KeepsBlocks g) {B : List Byte} (h : B.length % 16 = 0) :
    mapBlocks f (mapBlocks g B) = mapBlocks (fun b => f (g b)) B := by
  unfold mapBlocks
  rw [mapBlocksN_length hg _ _ (by omega)]
  rw [show 16 * (B.length / 16) / 16 = B.length / 16 by omega]
  exact mapBlocksN_comp hg _ _ (by omega)

theorem mapBlocksN_congr {f g : List Byte → List Byte} (h : ∀ b : List Byte, b.length = 16 → f b = g b) :
    ∀ (n : Nat) (B : List Byte), 16 * n ≤ B.length → mapBlocksN f n B = mapBlocksN g n B
  | 0, _, _ => rfl
  | n + 1, B, hB => by
    simp only [mapBlocksN]
    rw [h _ (by simp; omega), mapBlocksN_congr h n _ (by simp; omega)]

theorem mapBlocks_congr {f g : List Byte → List Byte} (h : ∀ b : List Byte, b.length = 16 → f b = g b) (B : List Byte) :
    mapBlocks f B = mapBlocks g B := mapBlocksN_congr h _ _ (by omega)

theorem mapBlocksN_id : ∀ (n : Nat) (B : List Byte), mapBlocksN (fun b => b) n B = B.take (16 * n)
  | 0, _ => by simp [mapBlocksN]
  | n + 1, B => by
    rw [mapBlocksN, mapBlocksN_id n, show 16 * (n + 1) = 16 + 16 * n by omega, List.take_add]

theorem mapBlocks_id {f : List Byte → List Byte} (hf : ∀ b : List Byte, b.length = 16 → f b = b) {B : List Byte}
    (h : B.length % 16 = 0) : mapBlocks f B = B := by
  rw [mapBlocks_congr hf, mapBlocks, mapBlocksN_id]
  exact List.take_of_length_le (by omega)

/-- MapBlocks of a function undone by another is undone by it. -/
theorem mapBlocks_undo {f g : List Byte → List Byte} (hg : KeepsBlocks g)
    (h : ∀ b : List Byte, b.length = 16 → f (g b) = b) {B : List Byte} (hB : B.length % 16 = 0) :
    mapBlocks f (mapBlocks g B) = B := by
  rw [mapBlocks_comp hg hB]; exact mapBlocks_id h hB

end Sys2Proof.Machine
end

