-- ==== Sys2Proof/Laws/Commands.lean ====
section
/-! SUPPORT. What a command can do: the one inversion lemma of `command`, every meaning as a `command`, and the causes
of each command. -/

namespace Sys2Proof.Machine

/-- The checks of each command (R148). -/
def checksOf : Instr → List (State → Option ResCode)
  | .kexp => kexpChecks
  | .ark r => arkChecks r
  | .subbytes | .invsubbytes | .shiftrows | .invshiftrows | .mixcolumns | .invmixcolumns => primChecks
  | .enc | .dec => pipelineChecks

/-- The effect of each command when no check applies. -/
def effectOf : Instr → State → State
  | .kexp => expandKey
  | .ark r => arkEffect r
  | .subbytes => onData (subBytes .enc)
  | .invsubbytes => onData (subBytes .dec)
  | .shiftrows => onData (shiftRows .enc)
  | .invshiftrows => onData (shiftRows .dec)
  | .mixcolumns => onData (mixColumns .enc)
  | .invmixcolumns => onData (mixColumns .dec)
  | .enc => cipherEffect encrypt
  | .dec => cipherEffect decrypt

theorem exec_eq_command (i : Instr) (s : State) : exec i s = command (checksOf i) (effectOf i) s := by
  cases i <;> rfl

theorem command_halted {cs : List (State → Option ResCode)} {f : State → State} {s : State} (h : s.HALT = true) :
    command cs f s = .next s := by simp [command, h]

theorem command_raises {cs : List (State → Option ResCode)} {f : State → State} {s : State} {e : ResCode}
    (h : s.HALT = false) (hc : firstCause cs s = some e) : command cs f s = .next (raise e s) := by
  simp [command, h, hc]

theorem command_succeeds {cs : List (State → Option ResCode)} {f : State → State} {s : State}
    (h : s.HALT = false) (hc : firstCause cs s = none) : command cs f s = .next (succeed (f s)) := by
  simp [command, h, hc]

/-- Everything a command can do: keep a halted state, raise its first cause, or have its effect. -/
theorem command_cases {cs : List (State → Option ResCode)} {f : State → State} {s t : State}
    (h : command cs f s = .next t) :
    (s.HALT = true ∧ t = s) ∨ (∃ e, s.HALT = false ∧ firstCause cs s = some e ∧ t = raise e s) ∨
      (s.HALT = false ∧ firstCause cs s = none ∧ t = succeed (f s)) := by
  cases hh : s.HALT with
  | true => left; rw [command_halted hh] at h; cases h; exact ⟨rfl, rfl⟩
  | false =>
    right
    cases hc : firstCause cs s with
    | some e => left; rw [command_raises hh hc] at h; cases h; exact ⟨e, rfl, rfl, rfl⟩
    | none => right; rw [command_succeeds hh hc] at h; cases h; exact ⟨rfl, rfl, rfl⟩

theorem command_next (cs : List (State → Option ResCode)) (f : State → State) (s : State) :
    ∃ t, command cs f s = .next t := by
  cases hh : s.HALT with
  | true => exact ⟨_, command_halted hh⟩
  | false =>
    cases hc : firstCause cs s with
    | some e => exact ⟨_, command_raises hh hc⟩
    | none => exact ⟨_, command_succeeds hh hc⟩

/-- Everything a command of the table can do. -/
theorem exec_cases {i : Instr} {s t : State} (h : exec i s = .next t) :
    (s.HALT = true ∧ t = s) ∨ (∃ e, s.HALT = false ∧ firstCause (checksOf i) s = some e ∧ t = raise e s) ∨
      (s.HALT = false ∧ firstCause (checksOf i) s = none ∧ t = succeed (effectOf i s)) :=
  command_cases (exec_eq_command i s ▸ h)

theorem exec_next (i : Instr) (s : State) : ∃ t, exec i s = .next t := by
  rw [exec_eq_command]; exact command_next _ _ _

/-! ### The causes -/

@[simp] theorem keyLegal_iff (b : Byte) : keyLegal b = true ↔ b = 16 ∨ b = 24 ∨ b = 32 := by
  simp [keyLegal, or_assoc]

theorem firstCause_kexp (s : State) :
    firstCause kexpChecks s = if keyLegal s.KLEN then none else some .eKeysize := by
  cases h : keyLegal s.KLEN <;> simp [firstCause, kexpChecks, keyCheck, h]

theorem firstCause_pipeline (s : State) :
    firstCause pipelineChecks s =
      if keyLegal s.KLEN then if s.LEN.toNat > s.dbufBytes then some .eLen else none else some .eKeysize := by
  cases h : keyLegal s.KLEN <;> by_cases h1 : s.dbufBytes < s.LEN.toNat <;>
    simp [firstCause, pipelineChecks, keyCheck, lenCheck, List.findSome?, h, h1]

theorem firstCause_prim (s : State) :
    firstCause primChecks s =
      if s.LEN.toNat > s.dbufBytes then some .eLen else if s.LEN.toNat % 16 ≠ 0 then some .fAlign else none := by
  by_cases h1 : s.dbufBytes < s.LEN.toNat <;> by_cases h2 : s.LEN.toNat % 16 = 0 <;>
    simp [firstCause, primChecks, lenCheck, alignCheck, List.findSome?, h1, h2]

theorem firstCause_ark (r : Nat) (s : State) :
    firstCause (arkChecks r) s =
      if s.LEN.toNat > s.dbufBytes then some .eLen else if s.LEN.toNat % 16 ≠ 0 then some .fAlign
      else if s.SRND = 0 ∨ r > s.SRND.toNat then some .fRound else none := by
  by_cases h1 : s.dbufBytes < s.LEN.toNat <;> by_cases h2 : s.LEN.toNat % 16 = 0 <;>
    by_cases h3 : s.SRND = 0#8 ∨ s.SRND.toNat < r <;>
    simp [firstCause, arkChecks, primChecks, lenCheck, alignCheck, roundCheck, List.findSome?, h1, h2, h3]

/-- No cause is the code 0: a command that raises leaves a code other than OK (R141). -/
theorem firstCause_ne_ok (i : Instr) (s : State) : firstCause (checksOf i) s ≠ some .ok := by
  cases i <;>
    simp only [checksOf, firstCause_kexp, firstCause_pipeline, firstCause_prim, firstCause_ark] <;>
    split <;> (try split) <;> (try split) <;> simp

/-! ### A primitive on the data -/

/-- The data operand of a ready buffer. -/
theorem data_length (s : State) (n : Nat) : (data s n).length = n := by simp [data]

/-- `onData` on a block-aligned buffer: block `b` becomes `f` of it, and every other byte reads as before. -/
theorem onData_block {f : List Byte → List Byte} (hf : KeepsBlocks f) {s : State} (hD : s.D.spans dBase s.dbufBytes)
    (h1 : s.LEN.toNat ≤ s.dbufBytes) (h2 : s.LEN.toNat % 16 = 0) {b : Nat} (hb : 16 * b < s.LEN.toNat) :
    (onData f s).D.load (dBase + 16 * b) 16 = f (s.D.load (dBase + 16 * b) 16) := by
  have hl : (data s s.LEN.toNat).length = s.LEN.toNat := data_length _ _
  have hm : (mapBlocks f (data s s.LEN.toNat)).length = s.LEN.toNat := by
    rw [mapBlocks_length hf (by rw [hl]; exact h2), hl]
  rw [onData_D, load_store_inside hD (Nat.le_refl _) (by rw [hm]; omega) (by rw [hm]; omega),
    mapBlocks_block hf (by rw [hl]; exact h2) (by rw [hl]; exact hb), data, take_drop_load _ (by omega)]

theorem onData_outside {f : List Byte → List Byte} (hf : KeepsBlocks f) {s : State} (h2 : s.LEN.toNat % 16 = 0)
    {a : Nat} (ha : a < dBase ∨ dBase + s.LEN.toNat ≤ a) : (onData f s).D.read a = s.D.read a := by
  have hl : (data s s.LEN.toNat).length = s.LEN.toNat := data_length _ _
  refine read_store_outside _ ?_
  rw [mapBlocks_length hf (by rw [hl]; exact h2), hl]; exact ha

end Sys2Proof.Machine
end

