-- ==== Sys2Proof/Laws/Field.lean ====
section
/-! SUPPORT. The field product is additive in both arguments, and an additive function is fixed by eight bytes. -/

namespace Sys2Proof.Machine

theorem xtime_xor (a b : Byte) : xtime (a ^^^ b) = xtime a ^^^ xtime b := by
  have shl : (a ^^^ b) <<< 1 = a <<< 1 ^^^ b <<< 1 := by
    ext i hi; simp only [BitVec.getElem_shiftLeft, BitVec.getElem_xor]; cases decide (i < 1) <;> simp
  have c : ∀ x y k : Byte, x ^^^ y ^^^ k = x ^^^ k ^^^ y := fun x y k => by
    rw [BitVec.xor_assoc, BitVec.xor_comm y k, ← BitVec.xor_assoc]
  unfold xtime
  rw [shl, BitVec.getLsbD_xor]
  cases a.getLsbD 7 <;> cases b.getLsbD 7
  · simp
  · simp [BitVec.xor_assoc]
  · simp [c]
  · simp [c, ← BitVec.xor_assoc]

theorem gmulLoop_xor_right (n i : Nat) (a b c p q : Byte) :
    gmulLoop n i a (b ^^^ c) (p ^^^ q) = gmulLoop n i a b p ^^^ gmulLoop n i a c q := by
  induction n generalizing i a p q with
  | zero => rfl
  | succ n ih =>
    simp only [gmulLoop, ← ih]
    congr 1
    have e1 : p ^^^ q ^^^ a = p ^^^ a ^^^ q := by
      rw [BitVec.xor_assoc, BitVec.xor_comm q a, ← BitVec.xor_assoc]
    have e2 : p ^^^ a ^^^ (q ^^^ a) = p ^^^ q := by
      rw [← BitVec.xor_assoc, ← e1, BitVec.xor_assoc, BitVec.xor_self, BitVec.xor_zero]
    rw [BitVec.getLsbD_xor]
    cases b.getLsbD i <;> cases c.getLsbD i <;> simp [e1, e2, BitVec.xor_assoc]
    exact BitVec.xor_comm a q

theorem gmulLoop_xor_left (n i : Nat) (a a' b p q : Byte) :
    gmulLoop n i (a ^^^ a') b (p ^^^ q) = gmulLoop n i a b p ^^^ gmulLoop n i a' b q := by
  induction n generalizing i a a' p q with
  | zero => rfl
  | succ n ih =>
    simp only [gmulLoop, ← ih, xtime_xor]
    congr 1
    cases b.getLsbD i
    · simp
    · simp only [if_true]
      rw [BitVec.xor_assoc, ← BitVec.xor_assoc q, BitVec.xor_comm q a, BitVec.xor_assoc a, ← BitVec.xor_assoc p]

/-- The product distributes over XOR on the right (R67). -/
theorem gmul_xor_right (a b c : Byte) : gmul a (b ^^^ c) = gmul a b ^^^ gmul a c := by
  have := gmulLoop_xor_right 8 0 a b c 0 0
  simpa [gmul] using this

/-- The product distributes over XOR on the left. -/
theorem gmul_xor_left (a b c : Byte) : gmul (a ^^^ b) c = gmul a c ^^^ gmul b c := by
  have := gmulLoop_xor_left 8 0 a b c 0 0
  simpa [gmul] using this

/-- A byte is the XOR of its bits. -/
theorem byte_eq_xor_bits (x : Byte) :
    x = ((List.range 8).map fun i => if x.getLsbD i then BitVec.twoPow 8 i else 0).foldr (· ^^^ ·) 0 := by
  revert x; decide +kernel

/-- Two additive functions that agree on the eight powers of two agree everywhere. -/
theorem additive_ext {f g : Byte → Byte} (hf : ∀ x y, f (x ^^^ y) = f x ^^^ f y) (hg : ∀ x y, g (x ^^^ y) = g x ^^^ g y)
    (h : ∀ i, i < 8 → f (BitVec.twoPow 8 i) = g (BitVec.twoPow 8 i)) (x : Byte) : f x = g x := by
  have zero : ∀ k : Byte → Byte, (∀ x y, k (x ^^^ y) = k x ^^^ k y) → k 0 = 0 := fun k hk => by
    have := hk 0 0; simpa using this
  have main : ∀ l : List Nat, (∀ i ∈ l, i < 8) →
      f ((l.map fun i => if x.getLsbD i then BitVec.twoPow 8 i else 0).foldr (· ^^^ ·) 0) =
      g ((l.map fun i => if x.getLsbD i then BitVec.twoPow 8 i else 0).foldr (· ^^^ ·) 0) := by
    intro l
    induction l with
    | nil => intro _; exact (zero f hf).trans (zero g hg).symm
    | cons i l ih =>
      intro hl
      simp only [List.map_cons, List.foldr_cons, hf, hg]
      rw [ih fun j hj => hl j (List.mem_cons_of_mem _ hj)]
      congr 1
      split
      · exact h i (hl i List.mem_cons_self)
      · exact (zero f hf).trans (zero g hg).symm
  have := main (List.range 8) fun i hi => List.mem_range.1 hi
  rwa [← byte_eq_xor_bits x] at this

end Sys2Proof.Machine
end

