-- ==== Sys2Proof/Laws/KeyExpansion.lean ====
section
/-! SUPPORT. Key expansion: the schedule's words and length. -/

namespace Sys2Proof.Machine

theorem addWord_length (nk : Nat) (w : List (List Byte)) (i : Nat) : (addWord nk w i).length = w.length + 1 := by
  simp [addWord]

/-- The loop of R82 only appends. -/
theorem addWord_getD (nk : Nat) (w : List (List Byte)) (i j : Nat) (h : j < w.length) :
    (addWord nk w i).getD j [] = w.getD j [] := by
  simp [addWord, List.getD, List.getElem?_append_left h]

theorem xorRcon_length {w : List Byte} (h : w.length = 4) (j : Nat) : (xorRcon w j).length = 4 := by
  simp [xorRcon, h]

theorem rotWord_length (w : List Byte) : (rotWord w).length = w.length := by
  simp [rotWord]; omega

theorem scheduleTemp_length {nk i : Nat} {w : List Byte} (h : w.length = 4) : (scheduleTemp nk i w).length = 4 := by
  unfold scheduleTemp
  split
  · exact xorRcon_length (by simp [subWord, rotWord_length, h]) _
  · split <;> simp [subWord, h]

/-- Every word of the list is 4 bytes. -/
abbrev WordList (w : List (List Byte)) : Prop := ∀ x ∈ w, x.length = 4

theorem getD_word_length {w : List (List Byte)} (h : WordList w) {j : Nat} (hj : j < w.length) :
    (w.getD j []).length = 4 := by
  simp only [List.getD, List.getElem?_eq_getElem hj, Option.getD_some]
  exact h _ (List.getElem_mem hj)

theorem addWord_words {nk i : Nat} {w : List (List Byte)} (h : WordList w) (h0 : 0 < nk) (hi : i = w.length)
    (hn : nk ≤ i) : WordList (addWord nk w i) := by
  intro x hx
  simp only [addWord, List.mem_append, List.mem_singleton] at hx
  rcases hx with hx | rfl
  · exact h x hx
  · rw [xorBytes_length, scheduleTemp_length (getD_word_length h (by omega)), getD_word_length h (by omega)]
    rfl

theorem keyWords_words {nk : Nat} {key : List Byte} (h : key.length = 4 * nk) : WordList (keyWords nk key) := by
  intro x hx
  obtain ⟨i, hi, rfl⟩ := List.mem_map.1 hx
  have := List.mem_range.1 hi
  simp [slice]; omega

/-- The loop run for `n` words from a list `w`: the words of `w` stay, each further word is made from those before it,
and there are `n` more. -/
theorem foldl_addWord {nk : Nat} (h0 : 0 < nk) : ∀ (n : Nat) (w : List (List Byte)), WordList w → nk ≤ w.length →
    let W := (List.range' w.length n).foldl (addWord nk) w
    WordList W ∧ W.length = w.length + n ∧ (∀ j, j < w.length → W.getD j [] = w.getD j []) ∧
    ∀ j, w.length ≤ j → j < w.length + n →
      W.getD j [] = xorBytes (W.getD (j - nk) []) (scheduleTemp nk j (W.getD (j - 1) []))
  | 0, w, hw, hn => ⟨hw, rfl, fun _ _ => rfl, fun j h1 h2 => absurd h2 (by omega)⟩
  | n + 1, w, hw, hn => by
    have hl := addWord_length nk w w.length
    have ih := foldl_addWord h0 n (addWord nk w w.length) (addWord_words hw h0 rfl hn) (by omega)
    rw [hl] at ih
    rw [List.range'_succ, List.foldl_cons]
    obtain ⟨i1, i2, i3, i4⟩ := ih
    refine ⟨i1, by omega, fun j hj => ?_, fun j h1 h2 => ?_⟩
    · rw [i3 j (by omega), addWord_getD _ _ _ _ hj]
    · by_cases e : j = w.length
      · subst e
        have e1 := addWord_getD nk w w.length (w.length - nk) (by omega)
        have e2 := addWord_getD nk w w.length (w.length - 1) (by omega)
        rw [i3 w.length (by omega), i3 (w.length - nk) (by omega), i3 (w.length - 1) (by omega), e1, e2]
        simp [addWord, List.getD]
      · exact i4 j (by omega) (by omega)

/-- The schedule's words (R82): the key's words, then the recurrence. -/
theorem scheduleWords_spec {nk : Nat} (h0 : 0 < nk) {key : List Byte} (hk : key.length = 4 * nk) :
    WordList (scheduleWords nk key) ∧
    (scheduleWords nk key).length = nk + (4 * (nk + 6 + 1) - nk) ∧
    (∀ j, j < nk → (scheduleWords nk key).getD j [] = slice key (4 * j) 4) ∧
    ∀ j, nk ≤ j → j < nk + (4 * (nk + 6 + 1) - nk) →
      (scheduleWords nk key).getD j [] =
        xorBytes ((scheduleWords nk key).getD (j - nk) [])
          (scheduleTemp nk j ((scheduleWords nk key).getD (j - 1) [])) := by
  have hl : (keyWords nk key).length = nk := by simp [keyWords]
  have h := foldl_addWord h0 (4 * (nk + 6 + 1) - nk) (keyWords nk key) (keyWords_words hk) (by omega)
  rw [hl] at h
  obtain ⟨h1, h2, h3, h4⟩ := h
  refine ⟨h1, h2, fun j hj => ?_, h4⟩
  have e : (scheduleWords nk key).getD j [] = (keyWords nk key).getD j [] := h3 j hj
  rw [e]
  simp [keyWords, List.getD, hj]

theorem flatten_words_length : ∀ {w : List (List Byte)}, WordList w → w.flatten.length = 4 * w.length
  | [], _ => rfl
  | x :: w, h => by
    have h1 := h x List.mem_cons_self
    have h2 := flatten_words_length (w := w) fun y hy => h y (List.mem_cons_of_mem _ hy)
    simp [h1] at h2 ⊢; omega

/-- Byte `k` of word `i` is byte `4i + k` of the flattened sequence (R37). -/
theorem flatten_words_getD : ∀ {w : List (List Byte)}, WordList w → ∀ i k, k < 4 →
    w.flatten.getD (4 * i + k) 0 = (w.getD i []).getD k 0
  | [], _, i, k, _ => by simp [List.getD]
  | x :: w, h, 0, k, hk => by
    have h1 := h x List.mem_cons_self
    simp [List.getD, List.getElem?_append_left (show k < x.length by omega)]
  | x :: w, h, i + 1, k, hk => by
    have h1 := h x List.mem_cons_self
    have ih := flatten_words_getD (w := w) (fun y hy => h y (List.mem_cons_of_mem _ hy)) i k hk
    simp only [List.getD, List.flatten_cons] at ih ⊢
    rw [List.getElem?_append_right (by omega), show 4 * (i + 1) + k - x.length = 4 * i + k by omega]
    simpa using ih

/-- The schedule's length (R83). -/
theorem expand_length {nk : Nat} (h0 : 0 < nk) {key : List Byte} (hk : key.length = 4 * nk) :
    (expand key).length = 4 * (nk + (4 * (nk + 6 + 1) - nk)) := by
  have e : key.length / 4 = nk := by omega
  obtain ⟨h1, h2, _, _⟩ := scheduleWords_spec h0 hk
  rw [expand, e, flatten_words_length h1, h2]

/-- The schedule's length for a legal key (R5): `16 × (rounds + 1)`. -/
theorem expand_key_length {s : State} (h : keyLegal s.KLEN = true) :
    (expand (key s)).length = scheduleBytes (rounds s) := by
  rw [keyLegal_iff] at h
  have hk : (key s).length = s.KLEN.toNat := by simp [key]
  rcases h with h | h | h <;>
    simp only [h] at hk ⊢
  · rw [expand_length (nk := 4) (by omega) hk]; simp [scheduleBytes, rounds, h]
  · rw [expand_length (nk := 6) (by omega) hk]; simp [scheduleBytes, rounds, h]
  · rw [expand_length (nk := 8) (by omega) hk]; simp [scheduleBytes, rounds, h]

end Sys2Proof.Machine
end

