-- ==== Sys2Proof/Laws/PerInstr.lean ====
section
/-! SUPPORT. The statements made per instruction. -/

/-- Family EncodeDecode: the command's byte, where the command is well formed, decodes to the command with its operand. -/
def Sys2Proof.Laws.EncodeDecode.Statement (i : Sys2Proof.Instr) : Prop :=
  i.wellFormed = true → Sys2Proof.decode (Sys2Proof.encode i) = .ok i

namespace Sys2Proof.Laws.EncodeDecode

theorem kexp : Statement .kexp := fun _ => by decide

theorem ark (r : Nat) : Statement (.ark r) := fun h => by
  have hr : r < 16 := by simpa [Instr.wellFormed, Nat.lt_succ_iff] using h
  have all : ∀ r, r < 16 → decode (encode (.ark r)) = .ok (.ark r) := by decide
  exact all r hr

theorem subbytes : Statement .subbytes := fun _ => by decide

theorem invsubbytes : Statement .invsubbytes := fun _ => by decide

theorem shiftrows : Statement .shiftrows := fun _ => by decide

theorem invshiftrows : Statement .invshiftrows := fun _ => by decide

theorem mixcolumns : Statement .mixcolumns := fun _ => by decide

theorem invmixcolumns : Statement .invmixcolumns := fun _ => by decide

theorem enc : Statement .enc := fun _ => by decide

theorem dec : Statement .dec := fun _ => by decide

end Sys2Proof.Laws.EncodeDecode
end

