-- ==== Sys2Proof/Laws/Pipeline.lean ====
section
/-! SUPPORT. The pipeline: lengths, the padding step, and all that ENC and DEC do to the state. -/

namespace Sys2Proof.Machine

/-! ### ceil16 and Pad -/

theorem ceil16_mod (n : Nat) : ceil16 n % 16 = 0 := by unfold ceil16; omega

theorem le_ceil16 (n : Nat) : n ≤ ceil16 n := by unfold ceil16; omega

theorem ceil16_lt (n : Nat) : ceil16 n < n + 16 := by unfold ceil16; omega

theorem ceil16_of_aligned {n : Nat} (h : n % 16 = 0) : ceil16 n = n := by unfold ceil16; omega

/-- The padded length never passes the buffer's capacity (R124). -/
theorem ceil16_le {n k : Nat} (h : n ≤ 16 * k) : ceil16 n ≤ 16 * k := by unfold ceil16; omega

theorem pad_length (B : List Byte) : (pad B).length = ceil16 B.length := by
  have := le_ceil16 B.length
  simp [pad]; omega

/-! ### Encrypt and Decrypt keep aligned buffers -/

theorem scheduleKey_length {schedule : List Byte} {nr r : Nat} (h : schedule.length = scheduleBytes nr) (hr : r ≤ nr) :
    (scheduleKey schedule r).length = 16 := by
  unfold scheduleBytes at h
  simp [scheduleKey, slice]; omega

theorem addRound_length {schedule B : List Byte} {nr r : Nat} (h : schedule.length = scheduleBytes nr) (hr : r ≤ nr)
    (hB : B.length % 16 = 0) : (addRound schedule B r).length = B.length :=
  mapBlocks_length (addRoundKey_keeps (scheduleKey_length h hr)) hB

/-- A fold of length-keeping turns keeps the length. -/
theorem foldl_length {f : List Byte → Nat → List Byte} : ∀ (l : List Nat) (B : List Byte),
    (∀ r ∈ l, ∀ C : List Byte, C.length = B.length → (f C r).length = C.length) → (l.foldl f B).length = B.length
  | [], _, _ => rfl
  | r :: l, B, h => by
    have h1 := h r List.mem_cons_self B rfl
    rw [List.foldl_cons, foldl_length l (f B r) fun q hq C hC => h q (List.mem_cons_of_mem _ hq) C (hC.trans h1)]
    exact h1

theorem encryptRound_length {schedule B : List Byte} {nr r : Nat} (h : schedule.length = scheduleBytes nr)
    (hr : r ≤ nr) (hB : B.length % 16 = 0) : (encryptRound schedule B r).length = B.length := by
  have e1 := mapBlocks_length (subBytes_keeps .enc) hB
  have e2 := mapBlocks_length (shiftRows_keeps .enc) (B := mapBlocks (subBytes .enc) B) (by rw [e1]; exact hB)
  have e3 := mapBlocks_length (mixColumns_keeps .enc) (B := mapBlocks (shiftRows .enc) (mapBlocks (subBytes .enc) B))
    (by rw [e2, e1]; exact hB)
  rw [encryptRound, addRound_length h hr (by rw [e3, e2, e1]; exact hB), e3, e2, e1]

theorem decryptRound_length {schedule B : List Byte} {nr r : Nat} (h : schedule.length = scheduleBytes nr)
    (hr : r ≤ nr) (hB : B.length % 16 = 0) : (decryptRound schedule B r).length = B.length := by
  have e1 := addRound_length h hr hB
  have e2 := mapBlocks_length (mixColumns_keeps .dec) (B := addRound schedule B r) (by rw [e1]; exact hB)
  have e3 := mapBlocks_length (shiftRows_keeps .dec) (B := mapBlocks (mixColumns .dec) (addRound schedule B r))
    (by rw [e2, e1]; exact hB)
  rw [decryptRound, mapBlocks_length (subBytes_keeps .dec) (by rw [e3, e2, e1]; exact hB), e3, e2, e1]

theorem encrypt_length {B schedule : List Byte} {nr : Nat} (h : schedule.length = scheduleBytes nr)
    (hB : B.length % 16 = 0) : (encrypt B schedule nr).length = B.length := by
  have e0 := addRound_length h (Nat.zero_le nr) hB
  have e1 : ((List.range' 1 (nr - 1)).foldl (encryptRound schedule) (addRound schedule B 0)).length = B.length := by
    rw [foldl_length, e0]
    intro r hr C hC
    rw [List.mem_range'_1] at hr
    exact encryptRound_length h (by omega) (by rw [hC, e0]; exact hB)
  simp only [encrypt]
  rw [addRound_length h (Nat.le_refl nr)] <;>
    rw [mapBlocks_length (shiftRows_keeps .enc), mapBlocks_length (subBytes_keeps .enc)] <;>
    (try rw [mapBlocks_length (subBytes_keeps .enc)]) <;> rw [e1] <;> exact hB

theorem decrypt_length {B schedule : List Byte} {nr : Nat} (h : schedule.length = scheduleBytes nr)
    (hB : B.length % 16 = 0) : (decrypt B schedule nr).length = B.length := by
  have e0 := addRound_length h (Nat.le_refl nr) hB
  have e1 := mapBlocks_length (shiftRows_keeps .dec) (B := addRound schedule B nr) (by rw [e0]; exact hB)
  have e2 := mapBlocks_length (subBytes_keeps .dec) (B := mapBlocks (shiftRows .dec) (addRound schedule B nr))
    (by rw [e1, e0]; exact hB)
  have e3 : ((List.range' 1 (nr - 1)).reverse.foldl (decryptRound schedule)
      (mapBlocks (subBytes .dec) (mapBlocks (shiftRows .dec) (addRound schedule B nr)))).length = B.length := by
    rw [foldl_length, e2, e1, e0]
    intro r hr C hC
    rw [List.mem_reverse, List.mem_range'_1] at hr
    exact decryptRound_length h (by omega) (by rw [hC, e2, e1, e0]; exact hB)
  simp only [decrypt]
  rw [addRound_length h (Nat.zero_le nr) (by rw [e3]; exact hB), e3]

/-! ### The effect of ENC and DEC -/

/-- The padding step leaves the padded byte sequence in the buffer (R120, R124). -/
theorem padData_load {s : State} (hD : s.D.spans dBase s.dbufBytes) (h : s.LEN.toNat ≤ s.dbufBytes) :
    data (padData s) (ceil16 s.LEN.toNat) = pad (data s s.LEN.toNat) := by
  have hp := ceil16_le (k := s.cfg.nblk) h
  have hle := le_ceil16 s.LEN.toNat
  unfold State.dbufBytes at hD
  rw [pad, data_length]
  apply List.ext_getElem
  · simp [data]; omega
  · intro i h1 h2
    have hi : i < ceil16 s.LEN.toNat := by simpa [data] using h1
    simp only [data, Memory.load, List.getElem_map, List.getElem_range, padData_D]
    by_cases c : i < s.LEN.toNat
    · rw [List.getElem_append_left (by simpa using c), read_store_outside _ (by left; omega)]
      simp
    · rw [List.getElem_append_right (by simpa using c),
        read_store_inside hD (by omega) (by omega) (by omega) (by simp; omega)]
      simp [List.getD]

theorem padData_outside (s : State) {a : Nat} (ha : a < dBase + s.LEN.toNat ∨ dBase + ceil16 s.LEN.toNat ≤ a) :
    (padData s).D.read a = s.D.read a := by
  have := le_ceil16 s.LEN.toNat
  refine read_store_outside _ ?_
  rw [List.length_replicate]; omega

/-- The padded length fits `LEN` (R6: "The bound 4095 keeps `DBUF_BYTES <= 65520`"). -/
theorem padData_LEN_toNat {s : State} (hc : s.cfg.legal) (h : s.LEN.toNat ≤ s.dbufBytes) :
    (padData s).LEN.toNat = ceil16 s.LEN.toNat := by
  have hp := ceil16_le (k := s.cfg.nblk) h
  have := hc.2
  simp; omega

/-- The schedule just written is what the pipeline reads (R124). -/
theorem expandKey_load {s : State} (hR : s.RK.spans rkBase rkBytes) (hk : keyLegal s.KLEN = true) :
    (expandKey s).RK.load rkBase (scheduleBytes (rounds s)) = expand (key s) := by
  have hl := expand_key_length hk
  have hb : scheduleBytes (rounds s) ≤ rkBytes := by
    rw [keyLegal_iff] at hk
    rcases hk with h | h | h <;> simp [scheduleBytes, rounds, rkBytes, h]
  rw [← hl]
  exact load_store_same hR (Nat.le_refl _) (by omega)

theorem expandKey_outside {s : State} (hk : keyLegal s.KLEN = true) {a : Nat}
    (ha : a < rkBase ∨ rkBase + scheduleBytes (rounds s) ≤ a) : (expandKey s).RK.read a = s.RK.read a := by
  refine read_store_outside _ ?_
  rw [expand_key_length hk]; exact ha

/-- The rounds of a legal key fit `SRND`, and are 10, 12 or 14 (R16). -/
theorem rounds_legal {s : State} (hk : keyLegal s.KLEN = true) :
    rounds s = 10 ∨ rounds s = 12 ∨ rounds s = 14 := by
  rw [keyLegal_iff] at hk
  rcases hk with h | h | h <;> simp [rounds, h]

/-- `cipher` keeps aligned buffers, given a schedule of the right length. -/
abbrev KeepsBuffers (cipher : List Byte → List Byte → Nat → List Byte) : Prop :=
  ∀ {B schedule : List Byte} {nr : Nat}, schedule.length = scheduleBytes nr → B.length % 16 = 0 →
    (cipher B schedule nr).length = B.length

/-- ENC and DEC leave the pipeline's output for the padded data and the schedule of the key (R124, R125). -/
theorem cipherEffect_load {g : List Byte → List Byte → Nat → List Byte} (hg : KeepsBuffers g) {s : State}
    (hD : s.D.spans dBase s.dbufBytes) (hR : s.RK.spans rkBase rkBytes) (hk : keyLegal s.KLEN = true)
    (h : s.LEN.toNat ≤ s.dbufBytes) :
    (cipherEffect g s).D.load dBase (ceil16 s.LEN.toNat) =
      g (pad (data s s.LEN.toNat)) (expand (key s)) (rounds s) := by
  have e1 : data (expandKey (padData s)) (ceil16 s.LEN.toNat) = pad (data s s.LEN.toNat) := padData_load hD h
  have e2 : (expandKey (padData s)).RK.load rkBase (scheduleBytes (rounds s)) = expand (key s) := expandKey_load hR hk
  have hl : (g (pad (data s s.LEN.toNat)) (expand (key s)) (rounds s)).length = ceil16 s.LEN.toNat := by
    rw [hg (expand_key_length hk) (by rw [pad_length, data_length]; exact ceil16_mod _), pad_length, data_length]
  have hD' : (padData s).D.spans dBase s.dbufBytes := store_spans hD _ _
  have hp := ceil16_le (k := s.cfg.nblk) h
  simp only [cipherEffect, e1, e2, expandKey_D]
  conv_lhs => rw [← hl]
  exact load_store_same hD' (Nat.le_refl _) (by rw [hl]; unfold State.dbufBytes; omega)

/-- Beyond the padded length ENC and DEC keep the buffer (R14). -/
theorem cipherEffect_outside {g : List Byte → List Byte → Nat → List Byte} (hg : KeepsBuffers g) {s : State}
    (hD : s.D.spans dBase s.dbufBytes) (hR : s.RK.spans rkBase rkBytes) (hk : keyLegal s.KLEN = true)
    (h : s.LEN.toNat ≤ s.dbufBytes) {a : Nat} (ha : a < dBase ∨ dBase + ceil16 s.LEN.toNat ≤ a) :
    (cipherEffect g s).D.read a = s.D.read a := by
  have e1 : data (expandKey (padData s)) (ceil16 s.LEN.toNat) = pad (data s s.LEN.toNat) := padData_load hD h
  have e2 : (expandKey (padData s)).RK.load rkBase (scheduleBytes (rounds s)) = expand (key s) := expandKey_load hR hk
  have hl : (g (pad (data s s.LEN.toNat)) (expand (key s)) (rounds s)).length = ceil16 s.LEN.toNat := by
    rw [hg (expand_key_length hk) (by rw [pad_length, data_length]; exact ceil16_mod _), pad_length, data_length]
  have hle := le_ceil16 s.LEN.toNat
  simp only [cipherEffect, e1, e2, expandKey_D]
  rw [read_store_outside _ (by rw [hl]; exact ha), padData_outside _ (by omega)]

end Sys2Proof.Machine
end

