-- ==== Sys2Proof/Laws/Step.lean ====
section
/-! SUPPORT. What a step can do: the one inversion lemma, from which each invariant is a short case analysis. -/

namespace Sys2Proof.Machine

/-- What a write to `CMD` can do while `HALT = 0`. -/
theorem executeCommand_cases {c : Byte} {s t : State} (hh : s.HALT = false) (h : executeCommand c s = .next t) :
    (∃ i, decode c = .ok i ∧ exec i s = .next t) ∨ (∃ r, decode c = .error r ∧ t = raise .eIllcmd s) := by
  simp only [executeCommand, hh, Bool.false_eq_true, if_false] at h
  cases hd : decode c with
  | ok i => rw [hd] at h; exact .inl ⟨i, rfl, h⟩
  | error r => rw [hd] at h; cases r; cases h; exact .inr ⟨_, rfl, rfl⟩

/-- Everything a store of the host can do: keep the state, or change one register, or one byte of `K` or `D`. -/
theorem hostStore_cases (a : Nat) (v : Byte) (s : State) :
    (a ≤ 0x1F ∧ hostStore a v s = { s with K := s.K.write a v }) ∨
    (a = 0x20 ∧ hostStore a v s = { s with KLEN := v }) ∨
    (a = 0x22 ∧ hostStore a v s = { s with LEN := setLenLo s.LEN v }) ∨
    (a = 0x23 ∧ hostStore a v s = { s with LEN := setLenHi s.LEN v }) ∨
    (0x10000 ≤ a ∧ a < 0x10000 + s.dbufBytes ∧ hostStore a v s = { s with D := s.D.write a v }) ∨
    hostStore a v s = s := by
  unfold hostStore
  split
  · exact .inl ⟨‹_›, rfl⟩
  · split
    · exact .inr (.inl ⟨‹_›, rfl⟩)
    · split
      · exact .inr (.inr (.inl ⟨‹_›, rfl⟩))
      · split
        · exact .inr (.inr (.inr (.inl ⟨‹_›, rfl⟩)))
        · split
          · rename_i h; exact .inr (.inr (.inr (.inr (.inl ⟨h.1, h.2, rfl⟩))))
          · exact .inr (.inr (.inr (.inr (.inr rfl))))

/-- Everything a transaction can do. -/
theorem transact_cases {x : Txn} {s t : State} (h : transact x s = .next t) :
    (∃ a, x = .memRead a ∧ t = { s with returned := s.returned ++ [memRead s a.toNat] }) ∨
    (∃ a v, x = .memWrite a v ∧ s.HALT = true ∧ t = s) ∨
    (∃ a v i, x = .memWrite a v ∧ s.HALT = false ∧ a.toNat = cmdAddr ∧ decode v = .ok i ∧ exec i s = .next t) ∨
    (∃ a v r, x = .memWrite a v ∧ s.HALT = false ∧ a.toNat = cmdAddr ∧ decode v = .error r ∧ t = raise .eIllcmd s) ∨
    (∃ a v, x = .memWrite a v ∧ s.HALT = false ∧ a.toNat ≠ cmdAddr ∧ t = hostStore a.toNat v s) ∨
    (x = .reset ∧ t = resetEvent s) := by
  cases x with
  | memRead a => cases h; exact .inl ⟨a, rfl, rfl⟩
  | reset => cases h; exact .inr (.inr (.inr (.inr (.inr ⟨rfl, rfl⟩))))
  | memWrite a v =>
    simp only [transact, memWrite] at h
    cases hh : s.HALT with
    | true => rw [hh] at h; cases h; exact .inr (.inl ⟨a, v, rfl, rfl, rfl⟩)
    | false =>
      simp only [hh, Bool.false_eq_true, if_false] at h
      split at h
      · rename_i ha
        rcases executeCommand_cases hh h with ⟨i, hd, he⟩ | ⟨r, hd, he⟩
        · exact .inr (.inr (.inl ⟨a, v, i, rfl, rfl, ha, hd, he⟩))
        · exact .inr (.inr (.inr (.inl ⟨a, v, r, rfl, rfl, ha, hd, he⟩)))
      · rename_i ha
        cases h
        exact .inr (.inr (.inr (.inr (.inl ⟨a, v, rfl, rfl, ha, rfl⟩))))

/-- Everything a step can do: idle, or the oldest transaction. -/
theorem step_cases {s t : State} (h : step s = .next t) :
    (s.pending = [] ∧ t = s) ∨ ∃ x rest, s.pending = x :: rest ∧ transact x { s with pending := rest } = .next t := by
  unfold step at h
  split at h
  · cases h; exact .inl ⟨‹_›, rfl⟩
  · exact .inr ⟨_, _, ‹_›, h⟩

/-- Every transaction completes (R169). -/
theorem transact_next (x : Txn) (s : State) : ∃ t, transact x s = .next t := by
  cases x with
  | memRead a => exact ⟨_, rfl⟩
  | reset => exact ⟨_, rfl⟩
  | memWrite a v =>
    simp only [transact, memWrite]
    split
    · exact ⟨_, rfl⟩
    · split
      · unfold executeCommand
        split
        · exact ⟨_, rfl⟩
        · split
          · exact exec_next _ _
          · exact ⟨_, rfl⟩
      · exact ⟨_, rfl⟩

end Sys2Proof.Machine
end

