-- ==== Sys2Proof/Tests/Slice0.lean ====
section
/-! SUPPORT. Tests: expected results from the spec's tables and worked examples (spec/95_test_vectors.md, cited by its
section numbers), and for every obligation with hypotheses a state and operands that meet them all. -/

namespace Sys2Proof.Tests

open Sys2Proof.Machine

-- One kernel evaluation at a time: each thread that checks one in the background holds a large stack.
set_option Elab.async false

/-! ### Helpers -/

/-- The `n` bytes of a hex string written as one number, first byte first (R8). -/
def bytes (n w : Nat) : List Byte := (List.range n).map fun i => BitVec.ofNat 8 (w >>> (8 * (n - 1 - i)))

/-- An engine of `nblk` blocks whose arrays hold 0xC3, after `LDKEY key` and `LDDATA data`. -/
def engine (nblk : Nat) (key data : List Byte) : State :=
  let s := State.resetWith { nblk := nblk } (fun _ => 0xC3)
  { s with K := s.K.store kBase key, KLEN := BitVec.ofNat 8 key.length,
           D := s.D.store dBase data, LEN := BitVec.ofNat 16 data.length }

/-- An engine of `nblk` blocks with the three length registers at given values. -/
def lengths (nblk klen len srnd : Nat) : State :=
  { State.resetWith { nblk := nblk } (fun a => BitVec.ofNat 8 a) with
    KLEN := BitVec.ofNat 8 klen, LEN := BitVec.ofNat 16 len, SRND := BitVec.ofNat 8 srnd }

/-- The state an outcome leaves, if it is a next state. -/
def stateOf : Host.Outcome State Fault Refusal → Option State
  | .next t => some t
  | .fault _ => none
  | .refused _ => none

/-- `D[0..LEN)` and `STATUS` after an outcome. -/
def result (o : Host.Outcome State Fault Refusal) : Option (List Byte × Byte) :=
  (stateOf o).map fun t => (t.D.load dBase t.LEN.toNat, status t)

/-- `STATUS` after an outcome. -/
def statusAfter (o : Host.Outcome State Fault Refusal) : Option Byte := (stateOf o).map status

/-- One block, as the engine holds it, with no key. -/
def block (w : Nat) : State := engine 1 [] (bytes 16 w)

def key128 : List Byte := bytes 16 0x2b7e151628aed2a6abf7158809cf4f3c
def key192 : List Byte := bytes 24 0x000102030405060708090a0b0c0d0e0f1011121314151617
def key256 : List Byte := bytes 32 0x000102030405060708090a0b0c0d0e0f101112131415161718191a1b1c1d1e1f

/-! ### Well-formedness -/

theorem test_ark_16_has_no_encoding : (Instr.ark 16).wellFormed = false := by decide

theorem test_ark_15_is_well_formed : (Instr.ark 15).wellFormed = true := by decide

/-! ### Decoding: words from the `op arg` column of R52 -/

theorem test_decode_kexp : decode 0b00010000 = .ok .kexp := by decide
theorem test_decode_ark_0 : decode 0b00100000 = .ok (.ark 0) := by decide
theorem test_decode_ark_10 : decode 0b00101010 = .ok (.ark 10) := by decide
theorem test_decode_subbytes : decode 0b00110000 = .ok .subbytes := by decide
theorem test_decode_invsubbytes : decode 0b00110001 = .ok .invsubbytes := by decide
theorem test_decode_shiftrows : decode 0b01000000 = .ok .shiftrows := by decide
theorem test_decode_invshiftrows : decode 0b01000001 = .ok .invshiftrows := by decide
theorem test_decode_mixcolumns : decode 0b01010000 = .ok .mixcolumns := by decide
theorem test_decode_invmixcolumns : decode 0b01010001 = .ok .invmixcolumns := by decide
theorem test_decode_enc : decode 0b01100000 = .ok .enc := by decide
theorem test_decode_dec : decode 0b01110000 = .ok .dec := by decide

/-- Section 7.1: the reserved bytes at the edges of their ranges. -/
theorem test_reserved_bytes :
    ∀ c ∈ [0x00, 0x0F, 0x11, 0x1F, 0x32, 0x3F, 0x42, 0x4F, 0x52, 0x5F, 0x61, 0x6F, 0x71, 0x7F, 0x80, 0xFF],
      decode c = .error (.reserved c) := by decide

theorem test_table_word : decodeTableWord 8 0x2A = some (.ark 10) ∧ decodeTableWord 8 0x80 = none := by decide

/-! ### Field and tables -/

/-- Section 2.1. -/
theorem test_xtime : xtime 0x7f = 0xfe ∧ xtime 0x80 = 0x1b ∧ xtime 0xae = 0x47 ∧ xtime 0xff = 0xe5 := by decide

/-- Section 2.2. -/
theorem test_gmul : gmul 0x57 0x83 = 0xc1 ∧ gmul 0x53 0xca = 0x01 ∧ gmul 0x0e 0x04 = 0x38 ∧ gmul 0xff 0xff = 0x13 := by
  decide

/-- Section 2.3: three corners, and the first of the entries that no vector reads. -/
theorem test_tables : sbox 0x00 = 0x63 ∧ sbox 0x53 = 0xed ∧ sbox 0x1a = 0xa2 ∧ invSbox 0x63 = 0x00 ∧ invSbox 0xff = 0x7d := by
  decide

/-! ### The commands -/

/-- Section 3.2: round keys 1 and 10 of the KAT128 key, and `SRND`. -/
theorem test_kexp_128 :
    (stateOf (exec .kexp (engine 1 key128 []))).map (fun t => (roundKey t 1, roundKey t 10, t.SRND)) =
      some (bytes 16 0xa0fafe1788542cb123a339392a6c7605, bytes 16 0xd014f9a8c9ee2589e13f0cc8b6630ca6, 10) := by
  decide +kernel

/-- Section 3.6: the last round key of the all-ones 256-bit key. -/
theorem test_kexp_256 :
    (stateOf (exec .kexp (engine 1 (List.replicate 32 0xff) []))).map (fun t => (roundKey t 14, t.SRND)) =
      some (bytes 16 0x546d424f27de1e8088402b5b4dae355e, 14) := by decide +kernel

/-- Section 5.1b: `ARK 10`, both blocks get round key 10 (section 3.2). -/
theorem test_ark_10 :
    let s := engine 2 [] (bytes 32 0xe9317db5cb322c723d2e895faf090794ffffffffffffffffffffffffffffffff)
    result (exec (.ark 10)
      { s with SRND := 10, RK := s.RK.store 0x001A0 (bytes 16 0xd014f9a8c9ee2589e13f0cc8b6630ca6) }) =
      some (bytes 32 0x3925841d02dc09fbdc118597196a0b322feb06573611da761ec0f337499cf359, 0x00) := by decide +kernel

/-- Section 5.6: `ARK 11` with `SRND = 10` is F_ROUND and leaves `D`. -/
theorem test_ark_11_of_10_rounds :
    stateOf (exec (.ark 11) (lengths 1 0 16 10)) = some { lengths 1 0 16 10 with RES := .fRound, HALT := true } := by
  decide +kernel

/-- Section 5.2. -/
theorem test_subbytes : result (exec .subbytes (block 0x193de3bea0f4e22b9ac68d2ae9f84808)) =
    some (bytes 16 0xd42711aee0bf98f1b8b45de51e415230, 0x00) := by decide +kernel

/-- Section 5.6: `LEN = 16` with two blocks loaded: the second block is unchanged. -/
theorem test_subbytes_one_block_of_two :
    (stateOf (exec .subbytes (lengths 2 0 16 0))).map (fun t => t.D.load 0x10010 16) =
      some (bytes 16 0x101112131415161718191a1b1c1d1e1f) := by decide +kernel

/-- Section 5.2a. -/
theorem test_invsubbytes : result (exec .invsubbytes (block 0x000102030405060708090a0b0c0d0e0f)) =
    some (bytes 16 0x52096ad53036a538bf40a39e81f3d7fb, 0x00) := by decide +kernel

/-- Section 5.3. -/
theorem test_shiftrows : result (exec .shiftrows (block 0xd42711aee0bf98f1b8b45de51e415230)) =
    some (bytes 16 0xd4bf5d30e0b452aeb84111f11e2798e5, 0x00) := by decide +kernel

/-- Section 5.3a: the reverse of the first row of section 5.3. -/
theorem test_invshiftrows : result (exec .invshiftrows (block 0x00050a0f04090e03080d02070c01060b)) =
    some (bytes 16 0x000102030405060708090a0b0c0d0e0f, 0x00) := by decide +kernel

/-- Section 5.4: the unit columns read out the columns of the matrix. -/
theorem test_mixcolumns : result (exec .mixcolumns (block 0x01000000000100000000010000000001)) =
    some (bytes 16 0x02010103030201010103020101010302, 0x00) := by decide +kernel

/-- Section 5.4a. -/
theorem test_invmixcolumns : result (exec .invmixcolumns (block 0x01000000000100000000010000000001)) =
    some (bytes 16 0x0e090d0b0b0e090d0d0b0e09090d0b0e, 0x00) := by decide +kernel

/-- Section 1.1, KAT128 (FIPS-197 by the source's word). -/
theorem test_enc_128 : result (exec .enc (engine 1 key128 (bytes 16 0x3243f6a8885a308d313198a2e0370734))) =
    some (bytes 16 0x3925841d02dc09fbdc118597196a0b32, 0x00) := by decide +kernel

/-- Section 6.3, row KAT256: 11 bytes are padded to a block, and the byte beyond keeps its 0xC3. -/
theorem test_enc_256_pads :
    (stateOf (exec .enc (engine 2 key256 (bytes 11 0x68656c6c6f20776f726c64)))).map (fun t =>
      (t.LEN, t.D.load dBase 17)) = some (16, bytes 17 0x7c87f6864ca1c0efb3c222430ad1dc0bc3) := by decide +kernel

/-- Section 1.1, KAT192 backwards. -/
theorem test_dec_192 : result (exec .dec (engine 1 key192 (bytes 16 0xdda97ca4864cdfe06eaf70a0ec0d7191))) =
    some (bytes 16 0x00112233445566778899aabbccddeeff, 0x00) := by decide +kernel

/-! ### Errors, the port and reset -/

/-- Section 7.4, with a capacity of four blocks. -/
theorem test_priority :
    statusAfter (step ((lengths 4 17 4464 0).withFetchWord 8 0x80)) = some 0x02 ∧
    statusAfter (step ((lengths 4 17 4464 0).withFetchWord 8 0x60)) = some 0x01 ∧
    statusAfter (step ((lengths 4 16 4464 0).withFetchWord 8 0x60)) = some 0x03 ∧
    statusAfter (step ((lengths 4 17 4469 0).withFetchWord 8 0x2F)) = some 0x03 ∧
    statusAfter (step ((lengths 4 17 37 0).withFetchWord 8 0x2F)) = some 0x84 ∧
    statusAfter (step ((lengths 4 17 32 0).withFetchWord 8 0x2F)) = some 0x85 ∧
    statusAfter (step ((lengths 4 17 32 0).withFetchWord 8 0x30)) = some 0x00 := by decide +kernel

/-- Section 7.3, step 8: a halted engine ignores even a reserved byte. -/
theorem test_halted_ignores_reserved_byte :
    statusAfter (step ({ lengths 1 0 5 0 with RES := .fAlign, HALT := true }.withFetchWord 8 0xFF)) = some 0x84 := by
  decide +kernel

/-- Section 7.2: `LEN` is little-endian over its two addresses. -/
theorem test_len_bytes :
    (stateOf (Host.Core.run core 2 (issue (setlen 0x1234) (lengths 1 0 0 0)))).map (fun t =>
      (t.LEN, memRead t 0x00022, memRead t 0x00023)) = some (0x1234, 0x34, 0x12) := by decide +kernel

/-- Section 7.2: the last byte of `D` is writable, the next address reads 0x00. -/
theorem test_end_of_data_buffer :
    (stateOf (step { lengths 4 0 0 0 with pending := [.memWrite 0x1003F 0x55] })).map (fun t =>
      (memRead t 0x1003F, memRead t 0x10040)) = some (0x55, 0x00) := by decide +kernel

/-- Section 7.2: `SRND` and `RK` are read-only. -/
theorem test_read_only :
    stateOf (step { lengths 1 0 0 10 with pending := [.memWrite 0x00026 0x00] }) = some (lengths 1 0 0 10) ∧
    stateOf (step { lengths 1 0 0 10 with pending := [.memWrite 0x00100 0x77] }) = some (lengths 1 0 0 10) := by
  decide +kernel

/-- R56: `LDKEY` writes the bytes in ascending order and then their number. -/
theorem test_ldkey : ldkey [0x2b, 0x7e] = [.memWrite 0x00000 0x2b, .memWrite 0x00001 0x7e, .memWrite 0x00020 2] := by
  decide

/-- Section 3.7: after Reset, KEXP is E_KEYSIZE. -/
theorem test_kexp_after_reset :
    stateOf (step (State.reset.withFetchWord 8 0x10)) = some { State.reset with RES := .eKeysize } := by decide +kernel

/-- Section 7.3, step 10: Reset clears the halted state and the lengths. -/
theorem test_reset_transaction :
    (stateOf (step { lengths 1 16 5 10 with RES := .fAlign, HALT := true, pending := [.reset] })).map
      (fun t => (t.HALT, t.KLEN, t.LEN, t.SRND)) = some (false, 0, 0, 0) := by rfl


/-! ### Witnesses: states and operands that meet the hypotheses of the statements, clause by clause -/

/-- A two-block engine with the KAT128 key and schedule length registers as KEXP leaves them, and 32 data bytes. -/
def ready : State := { lengths 2 16 32 10 with K := (lengths 2 16 32 10).K.store kBase key128 }

/-- A halted engine. -/
def halted : State := { lengths 1 16 5 10 with RES := .fAlign, HALT := true }

/-- A legal state that is not halted. -/
abbrev live (s : State) : Prop := s.Inv ∧ s.HALT = false

theorem witness_ready_is_live : live ready := by decide +kernel

theorem witness_DecodeAndEncodeAgree :
    (Instr.ark 15).wellFormed = true ∧ encode (.ark 15) = 0x2F ∧ decode 0x2F = .ok (.ark 15) := by decide

theorem witness_ReservedBytesRaiseIllegalCommand :
    ∀ c ∈ [0x0F, 0x11, 0x80, 0xFF], decode c = .error (.reserved c) ∧ ready.HALT = false ∧
      { ready with pending := [.memWrite 0x00024 c] }.pending = .memWrite 0x00024 c :: [] := by decide

theorem witness_XtimeDoublesAndReduces : (0x7F : Byte).toNat < 0x80 ∧ 0x80 ≤ (0x80 : Byte).toNat := by decide

theorem witness_SboxIsAffineOfInverse : (0 : Byte) = 0 ∧ (0x53 : Byte) ≠ 0 := by decide

theorem witness_RoundConstantsArePowers :
    (1 ≤ 1 ∧ 1 < 10) ∧ (1 ≤ 9 ∧ 9 < 10) ∧ 4 ∈ [4, 6, 8] ∧ (4 ≤ 40 ∧ 40 ≤ 4 * (4 + 6 + 1) - 1 ∧ 40 % 4 = 0) ∧
      8 ∈ [4, 6, 8] ∧ (8 ≤ 8 ∧ 8 ≤ 4 * (8 + 6 + 1) - 1 ∧ 8 % 8 = 0) := by decide

/-- Word indices at the edges of the four clauses: copied, round constant, the extra SubWord of 256-bit keys, plain. -/
theorem witness_ExpandFollowsTheRecurrence :
    (key128.length = 4 * 4 ∧ key192.length = 4 * 6 ∧ key256.length = 4 * 8) ∧
    (3 < 4 ∧ 4 ≤ 4 ∧ 4 % 4 = 0 ∧ 43 < 4 * (4 + 6 + 1) ∧ 43 % 4 ≠ 0 ∧ ¬ (4 > 6 ∧ 43 % 4 = 4)) ∧
    (51 < 4 * (6 + 6 + 1) ∧ 10 % 6 = 4 ∧ ¬ (6 > 6 ∧ 10 % 6 = 4)) ∧
    (12 % 8 ≠ 0 ∧ 8 > 6 ∧ 12 % 8 = 4 ∧ 52 < 4 * (8 + 6 + 1) ∧ 52 % 8 = 4) := by decide

theorem witness_KexpExpandsTheKeyHeld :
    (∀ n ∈ [0, 15, 17, 33, 255], live (lengths 1 n 0 0) ∧ ¬ Claims.KeyLengthLegal (lengths 1 n 0 0)) ∧
    (∀ n ∈ [16, 24, 32], live (lengths 1 n 0 0) ∧ Claims.KeyLengthLegal (lengths 1 n 0 0)) := by
  unfold Claims.KeyLengthLegal; decide +kernel

theorem witness_PrimitiveLaws :
    (bytes 16 0).length = 16 ∧ (bytes 16 1).length = 16 ∧ key128.length = 16 := by decide

theorem witness_ShiftRowsRotatesRows : key128.length = 16 ∧ 0 < 4 ∧ 3 < 4 := by decide

theorem witness_MixColumnsEquations : key128.length = 16 ∧ 0 < 4 ∧ 3 < 4 := by decide

theorem witness_MapBlocksActsOnEachBlock :
    (∀ b : List Byte, b.length = 16 → (subBytes .enc b).length = 16) ∧ (bytes 32 7).length % 16 = 0 ∧
      16 * 0 < (bytes 32 7).length ∧ 16 * 1 < (bytes 32 7).length := by
  exact ⟨subBytes_keeps .enc, by decide, by decide, by decide⟩

/-- The three clauses of a primitive command: just above the capacity, the last unaligned length, none and all of it. -/
abbrev PrimitiveHypothesesMet : Prop :=
  (live (lengths 2 0 33 0) ∧ (lengths 2 0 33 0).dbufBytes < (lengths 2 0 33 0).LEN.toNat) ∧
  (∀ n ∈ [1, 17, 31], live (lengths 2 0 n 0) ∧ (lengths 2 0 n 0).LEN.toNat ≤ (lengths 2 0 n 0).dbufBytes ∧
    (lengths 2 0 n 0).LEN.toNat % 16 ≠ 0) ∧
  (∀ n ∈ [0, 16, 32], live (lengths 2 0 n 0) ∧ (lengths 2 0 n 0).LEN.toNat ≤ (lengths 2 0 n 0).dbufBytes ∧
    (lengths 2 0 n 0).LEN.toNat % 16 = 0) ∧
  16 * 1 < (lengths 2 0 32 0).LEN.toNat

theorem witness_SubstitutionCommands : PrimitiveHypothesesMet := by decide +kernel

theorem witness_RowShiftCommands : PrimitiveHypothesesMet := witness_SubstitutionCommands

theorem witness_ColumnMixCommands : PrimitiveHypothesesMet := witness_SubstitutionCommands

/-- The four clauses of ARK; the round index meets `SRND` at 10 and passes it at 11 (section 5.6). -/
theorem witness_AddRoundKeyCommand :
    PrimitiveHypothesesMet ∧
    (live (lengths 1 0 16 0) ∧ (lengths 1 0 16 0).SRND.toNat = 0) ∧
    (live (lengths 1 0 16 10) ∧ (lengths 1 0 16 10).SRND.toNat < 11) ∧
    (live (lengths 1 0 16 10) ∧ (lengths 1 0 16 10).LEN.toNat ≤ (lengths 1 0 16 10).dbufBytes ∧
      (lengths 1 0 16 10).LEN.toNat % 16 = 0 ∧ (lengths 1 0 16 10).SRND.toNat ≠ 0 ∧
      10 ≤ (lengths 1 0 16 10).SRND.toNat) := ⟨witness_SubstitutionCommands, by decide +kernel⟩

theorem witness_PrimitiveCommandsUndoEachOther :
    live ready ∧ ready.LEN.toNat ≤ ready.dbufBytes ∧ ready.LEN.toNat % 16 = 0 ∧ ready.SRND.toNat ≠ 0 ∧
      10 ≤ ready.SRND.toNat ∧ (Instr.ark 10, Instr.ark 10) ∈ Claims.undoPairs 10 := by decide +kernel

theorem witness_ArkFifteenNeverCompletes : live (lengths 1 0 16 14) ∧
    (lengths 1 0 16 14).LEN.toNat ≤ (lengths 1 0 16 14).dbufBytes := by decide +kernel

theorem witness_EncryptRoundSequence : 1 ≤ 14 ∧ 1 ≤ 1 ∧ (1 ≤ 13 ∧ 13 < 14) := by decide

theorem witness_DecryptRoundSequence : 1 ≤ 14 ∧ 1 ≤ 1 ∧ (1 ≤ 13 ∧ 13 < 14) := by decide

theorem witness_DecryptUndoesEncrypt :
    1 ≤ 10 ∧ (bytes 32 5).length % 16 = 0 ∧ (bytes 176 3).length = 16 * (10 + 1) := by decide +kernel

/-- ENC and DEC: `LEN` at 0, just below and at the capacity, and one above it; a legal and an illegal key length. -/
abbrev PipelineHypothesesMet : Prop :=
  (live (lengths 2 20 5 0) ∧ ¬ ((lengths 2 20 5 0).KLEN = 16 ∨ (lengths 2 20 5 0).KLEN = 24 ∨ (lengths 2 20 5 0).KLEN = 32)) ∧
  (live (lengths 2 24 33 0) ∧ (lengths 2 24 33 0).KLEN = 24 ∧
    (lengths 2 24 33 0).dbufBytes < (lengths 2 24 33 0).LEN.toNat) ∧
  (∀ n ∈ [0, 1, 16, 31, 32], live (lengths 2 32 n 0) ∧ (lengths 2 32 n 0).KLEN = 32 ∧
    (lengths 2 32 n 0).LEN.toNat ≤ (lengths 2 32 n 0).dbufBytes)

theorem witness_EncCommand : PipelineHypothesesMet := by decide +kernel

theorem witness_DecCommand : PipelineHypothesesMet := witness_EncCommand

theorem witness_EncThenDecGivesThePaddedInput :
    (live ready ∧ Claims.KeyLengthLegal ready ∧ ready.LEN.toNat ≤ ready.dbufBytes ∧ ready.LEN.toNat % 16 = 0) ∧
    (live (lengths 2 24 17 0) ∧ (lengths 2 24 17 0).LEN.toNat ≤ (lengths 2 24 17 0).dbufBytes) :=
  ⟨⟨witness_ready_is_live, .inl rfl, by decide, by decide⟩, by decide +kernel⟩

/-- Section 6.4 in small: two buffers that differ in byte 16, the first of block 1; block 0 is the same in both. -/
theorem witness_OutputBlocksAreIndependent :
    let s := lengths 2 16 18 0
    let s' := { s with D := s.D.write 0x10010 0xFF }
    live s ∧ live s' ∧ s'.KLEN = s.KLEN ∧ s.KLEN = 16 ∧ s'.K.load kBase s.KLEN.toNat = s.K.load kBase s.KLEN.toNat ∧
      s'.LEN = s.LEN ∧ s.LEN.toNat ≤ s.dbufBytes ∧ s.LEN.toNat ≤ s'.dbufBytes ∧ 16 * 0 < s.LEN.toNat ∧
      (∀ j < 16, s'.D.read (dBase + j) = s.D.read (dBase + j)) ∧ s'.D ≠ s.D := by decide +kernel

theorem witness_OutputBlocksAreIndependent_answers :
    ∃ t t', exec .enc (lengths 2 16 18 0) = .next t ∧
      exec .enc { lengths 2 16 18 0 with D := (lengths 2 16 18 0).D.write 0x10010 0xFF } = .next t' :=
  let ⟨t, h⟩ := exec_next .enc (lengths 2 16 18 0)
  let ⟨t', h'⟩ := exec_next .enc { lengths 2 16 18 0 with D := (lengths 2 16 18 0).D.write 0x10010 0xFF }
  ⟨t, t', h, h'⟩

/-- Two states that differ in a key byte beyond `KLEN`, in a data byte beyond `LEN`, in `RK`, `SRND` and `RES`. -/
theorem witness_PipelineIsAPureFunction :
    let s := lengths 2 16 18 0
    let s' := { s with K := s.K.write 16 0xFF, D := s.D.write 0x10012 0xFF, RK := s.RK.write 0x100 0xFF, SRND := 10,
                       RES := .eLen }
    live s ∧ live s' ∧ s'.cfg = s.cfg ∧ s'.KLEN = s.KLEN ∧
      s'.K.load kBase s.KLEN.toNat = s.K.load kBase s.KLEN.toNat ∧ s'.LEN = s.LEN ∧
      s'.D.load dBase s.LEN.toNat = s.D.load dBase s.LEN.toNat ∧ s' ≠ s := by decide +kernel

theorem witness_PipelineEqualsPrimitiveSequence :
    live ready ∧ ready.KLEN = 16 ∧ ready.LEN.toNat ≤ ready.dbufBytes ∧ ready.LEN.toNat % 16 = 0 := by decide +kernel

theorem witness_PipelineNeverHalts : Instr.dec ∈ [Instr.kexp, Instr.enc, Instr.dec] ∧ ready.HALT = false := by decide

/-- One state for each of the codes a command can raise; `witness_FirstCauseIsReported` has the pending write. -/
theorem witness_ErrorsArePrecise :
    [exec .enc (lengths 2 20 5 0), exec .dec (lengths 2 16 33 0), exec .shiftrows (lengths 2 0 31 0),
      exec (.ark 11) (lengths 2 0 32 10)].map (fun o => (stateOf o).map fun t => (t.RES, t.HALT)) =
    [some (.eKeysize, false), some (.eLen, false), some (.fAlign, true), some (.fRound, true)] := by decide +kernel

/-- A halted and a live engine with a command pending. -/
theorem witness_FirstCauseIsReported :
    { halted with pending := [.memWrite 0x00024 0x60] }.pending = .memWrite 0x00024 0x60 :: [] ∧ halted.HALT = true ∧
      { ready with pending := [.memWrite 0x00024 0x2F] }.pending = .memWrite 0x00024 0x2F :: [] ∧
      ready.HALT = false := by decide

/-- A halted engine that is legal, with a write, with a Reset, and with a read of an address other than `STATUS`. -/
theorem witness_HaltedEngineIgnoresWrites :
    halted.Inv ∧ halted.HALT = true ∧
      { halted with pending := [.memWrite 0x00000 0x55] }.pending = .memWrite 0x00000 0x55 :: [] ∧
      (stateOf (step { halted with pending := [.reset] })).map (·.HALT) = some false ∧ 0x00026 ≠ 0x00025 := by
  refine ⟨by decide +kernel, rfl, rfl, rfl, by decide⟩

/-- A command that is not a pipeline command, KEXP, and a halted engine, each answering a next state. -/
theorem witness_CommandsWriteOnlyTheirState :
    (∃ t, exec .subbytes ready = .next t) ∧ (∃ t, exec .kexp ready = .next t) ∧ Instr.subbytes ∉ [Instr.kexp, .enc, .dec] ∧
      (∃ t, exec .enc halted = .next t ∧ halted.HALT = true) :=
  ⟨exec_next _ _, exec_next _ _, by decide, ⟨_, rfl, rfl⟩⟩

/-- The first address beyond the data and the first beyond the padded data. -/
theorem witness_BytesBeyondTheDataAreKept :
    live (lengths 2 16 15 0) ∧ dBase + (lengths 2 16 16 0).LEN.toNat ≤ 0x10010 ∧
      dBase + 16 * (((lengths 2 16 15 0).LEN.toNat + 15) / 16) ≤ 0x10010 ∧ ∃ t, exec .enc (lengths 2 16 15 0) = .next t :=
  ⟨by decide +kernel, by decide, by decide, exec_next _ _⟩

theorem witness_UnusedKeyBytesAreIgnored :
    (ready.K.write 16 0xFF).load kBase ready.KLEN.toNat = ready.K.load kBase ready.KLEN.toNat ∧
      ready.K.write 16 0xFF ≠ ready.K ∧ ∃ t, exec .kexp ready = .next t :=
  ⟨by decide +kernel, by decide +kernel, exec_next _ _⟩

theorem witness_BytesBeyondTheDataAreUnread :
    let s := lengths 2 16 17 0
    s.Inv ∧ { s with D := s.D.write 0x10011 0xFF }.arraysSpan ∧
      (s.D.write 0x10011 0xFF).load dBase s.LEN.toNat = s.D.load dBase s.LEN.toNat ∧ s.D.write 0x10011 0xFF ≠ s.D ∧
      ∃ t, exec .dec s = .next t :=
  ⟨by decide +kernel, by decide +kernel, by decide +kernel, by decide +kernel, exec_next _ _⟩

/-- The edges of the map of R33 for `NBLK = 2`, clause by clause. -/
theorem witness_MemReadFollowsTheMap :
    (∀ n ∈ [0x00000, 0x0001F], (BitVec.ofNat 17 n).toNat = n ∧ n ≤ 0x0001F) ∧
      (∀ n ∈ [0x00100, 0x001EF], (BitVec.ofNat 17 n).toNat = n ∧ 0x00100 ≤ n ∧ n ≤ 0x001EF) ∧
      (∀ n ∈ [0x10000, 0x1001F], (BitVec.ofNat 17 n).toNat = n ∧ 0x10000 ≤ n ∧ n < 0x10000 + ready.dbufBytes) ∧
      (∀ n ∈ [0x00021, 0x00024, 0x00027, 0x000FF, 0x001F0, 0x0FFFF, 0x10020, 0x1FFFF],
        (BitVec.ofNat 17 n).toNat = n ∧ (n = 0x00021 ∨ n = 0x00024 ∨ (0x00027 ≤ n ∧ n ≤ 0x000FF) ∨
          (0x001F0 ≤ n ∧ n ≤ 0x0FFFF) ∨ 0x10000 + ready.dbufBytes ≤ n)) := by decide +kernel

theorem witness_MemReadFollowsTheMap_pending :
    { ready with pending := [.memRead 0x1001F] }.pending = .memRead 0x1001F :: [] := rfl

/-- A live and a halted state with a write pending; the edges of the ranges, clause by clause. -/
theorem witness_MemWriteFollowsTheMap :
    live { ready with pending := [.memWrite 0x1001F 0x55] } ∧
      { halted with pending := [.memWrite 0x1001F 0x55] }.Inv ∧ halted.HALT = true ∧
      (∀ n ∈ [0x00000, 0x0001F], (BitVec.ofNat 17 n).toNat = n ∧ n ≤ 0x0001F) ∧
      (∀ n ∈ [0x10000, 0x1001F], (BitVec.ofNat 17 n).toNat = n ∧ 0x10000 ≤ n ∧ n < 0x10000 + ready.dbufBytes) ∧
      (∀ n ∈ [0x00021, 0x00025, 0x0FFFF, 0x10020, 0x1FFFF], (BitVec.ofNat 17 n).toNat = n ∧
        (n = 0x00021 ∨ (0x00025 ≤ n ∧ n ≤ 0x0FFFF) ∨ 0x10000 + ready.dbufBytes ≤ n)) := by decide +kernel

theorem witness_ReservedAndReadOnlyAreInert :
    (∀ a ∈ [0x00021, 0x00027, 0x000FF, 0x001F0, 0x0FFFF, 0x10020, 0x1FFFF], a < 2 ^ 17 ∧
      (a = 0x00021 ∨ (0x00027 ≤ a ∧ a ≤ 0x000FF) ∨ (0x001F0 ≤ a ∧ a ≤ 0x0FFFF) ∨ 0x10000 + ready.dbufBytes ≤ a)) ∧
    (∀ a ∈ [0x00100, 0x001EF], a < 2 ^ 17 ∧ 0x00100 ≤ a ∧ a ≤ 0x001EF) ∧
    { ready with pending := [.memWrite 0x1FFFF 0x55] }.pending = .memWrite (BitVec.ofNat 17 0x1FFFF) 0x55 :: [] := by
  decide

theorem witness_StepRunsTheDecodedCommand :
    { ready with pending := [.memWrite 0x00024 0x2F] }.pending = .memWrite 0x00024 0x2F :: [] ∧
      decode 0x2F = .ok (.ark 15) ∧ (Instr.ark 15).wellFormed = true := by decide

theorem witness_EveryTransactionCompletesInOrder : ready.pending = [] := rfl

theorem witness_ResetTransactionClears :
    { halted with pending := [.reset, .memRead 0] }.pending = .reset :: [.memRead 0] := rfl

theorem witness_LegalAtReset :
    (Config.mk 1).legal ∧ (Config.mk 4095).legal ∧ ¬ (Config.mk 0).legal ∧ ¬ (Config.mk 4096).legal := by decide

theorem witness_StepKeepsTheInvariant :
    { ready with pending := [.memWrite 0x00024 0x30] }.Inv ∧
      (stateOf (step { ready with pending := [.memWrite 0x00024 0x30] })).isSome = true := by decide +kernel

/-- A state with a schedule (that of the KAT128 key) whose next transaction changes the key. -/
theorem witness_StepKeepsTheSchedule :
    let s := { lengths 1 16 0 10 with
               RK := (lengths 1 16 0 10).RK.store rkBase (expand key128), pending := [.memWrite 0x00000 0xFF] }
    s.Inv ∧ s.SRND ≠ 0 ∧ s.scheduleHeld ∧ (stateOf (step s)).isSome = true :=
  ⟨by decide +kernel, by decide, fun _ => ⟨key128, by decide, by decide +kernel⟩, by decide +kernel⟩

/-- A reset state of the largest capacity, and a run in which the host loads a key length and issues ENC. -/
theorem witness_EveryReachableStateIsLegal :
    (Config.mk 4095).legal ∧
      Reaches (State.resetWith { nblk := 4095 } (fun _ => 0xC3))
        (issue (setklen 16 ++ [commandTxn .enc]) (State.resetWith { nblk := 4095 } (fun _ => 0xC3))) :=
  ⟨by decide, .issue _ .refl⟩

/-- A legal halted engine with a Reset pending; the edges of the three arrays. -/
theorem witness_ResetMayKeepOrReplaceTheArrays :
    { halted with pending := [.reset] }.Inv ∧ { halted with pending := [.reset] }.pending = .reset :: [] ∧
      (∀ a ∈ [0x00000, 0x0001F], a ≤ 0x0001F) ∧ (∀ a ∈ [0x00100, 0x001EF], 0x00100 ≤ a ∧ a ≤ 0x001EF) ∧
      (∀ a ∈ [0x10000, 0x1000F], 0x10000 ≤ a ∧ a < 0x10000 + halted.dbufBytes) := by decide +kernel

end Sys2Proof.Tests
end

/-! ## Scope: legal states

The invariant and what `SRND` says of `RK` hold at reset, and each of the few things a step can do keeps them. -/

namespace Sys2Proof.Machine

/-! ### What a host store leaves unchanged -/

/-- A store of the host reaches `K`, `KLEN`, `LEN` and `D` only (R32, R34). -/
theorem hostStore_frame (a : Nat) (v : Byte) (s : State) :
    hostStore a v s = { s with
      K := (hostStore a v s).K, KLEN := (hostStore a v s).KLEN,
      LEN := (hostStore a v s).LEN, D := (hostStore a v s).D } := by
  unfold hostStore
  split_ifs <;> rfl

@[simp] theorem hostStore_RK (a : Nat) (v : Byte) (s : State) : (hostStore a v s).RK = s.RK := by
  rw [hostStore_frame]

@[simp] theorem hostStore_SRND (a : Nat) (v : Byte) (s : State) : (hostStore a v s).SRND = s.SRND := by
  rw [hostStore_frame]

@[simp] theorem hostStore_RES (a : Nat) (v : Byte) (s : State) : (hostStore a v s).RES = s.RES := by
  rw [hostStore_frame]

@[simp] theorem hostStore_HALT (a : Nat) (v : Byte) (s : State) : (hostStore a v s).HALT = s.HALT := by
  rw [hostStore_frame]

@[simp] theorem hostStore_cfg (a : Nat) (v : Byte) (s : State) : (hostStore a v s).cfg = s.cfg := by
  rw [hostStore_frame]

/-! ### What the effect of a command is -/

/-- A command that checks the key length has its effect only with a legal one (R84, R124, R125). -/
theorem keyLegal_of_checks {cs : List (State → Option ResCode)} {s : State} (hm : keyCheck ∈ cs)
    (h : firstCause cs s = none) : keyLegal s.KLEN = true := by
  have hk : keyCheck s = none := List.findSome?_eq_none_iff.1 h _ hm
  by_contra hl
  rw [keyCheck, if_neg hl] at hk
  cases hk

/-- A command that passes its checks acts on the data alone, or, with a legal key length, expands the key or runs a
pipeline. -/
theorem effectOf_cases {i : Instr} {s : State} (h : firstCause (checksOf i) s = none) :
    (∃ f, effectOf i s = onData f s) ∨
      (keyLegal s.KLEN = true ∧ (effectOf i s = expandKey s ∨ ∃ g, effectOf i s = cipherEffect g s)) := by
  cases i with
  | kexp => exact .inr ⟨keyLegal_of_checks (.head _) h, .inl rfl⟩
  | enc => exact .inr ⟨keyLegal_of_checks (.head _) h, .inr ⟨_, rfl⟩⟩
  | dec => exact .inr ⟨keyLegal_of_checks (.head _) h, .inr ⟨_, rfl⟩⟩
  | ark r => exact .inl ⟨_, rfl⟩
  | subbytes => exact .inl ⟨_, rfl⟩
  | invsubbytes => exact .inl ⟨_, rfl⟩
  | shiftrows => exact .inl ⟨_, rfl⟩
  | invshiftrows => exact .inl ⟨_, rfl⟩
  | mixcolumns => exact .inl ⟨_, rfl⟩
  | invmixcolumns => exact .inl ⟨_, rfl⟩

/-! ### Properties that every action keeps -/

/-- Each action of the engine or the host keeps `P`. A `raise` and the effect of a command are met only while
`HALT = 0`, and the effect only where no check applies (R54, R147). -/
structure KeptByActions (P : State → Prop) : Prop where
  pending : ∀ {s : State} (xs : List Txn), P s → P { s with pending := xs }
  returned : ∀ {s : State} (bs : List Byte), P s → P { s with returned := bs }
  raise : ∀ {s : State} (e : ResCode), s.HALT = false → P s → P (raise e s)
  effect : ∀ {s : State} {i : Instr}, firstCause (checksOf i) s = none → s.HALT = false → P s →
    P (succeed (effectOf i s))
  hostStore : ∀ {s : State} (a : Nat) (v : Byte), P s → P (hostStore a v s)
  resetEvent : ∀ {s : State}, P s → P (resetEvent s)

namespace KeptByActions

variable {P : State → Prop} {s t : State}

theorem exec (k : KeptByActions P) {i : Instr} (hs : P s) (h : exec i s = .next t) : P t := by
  obtain ⟨-, rfl⟩ | ⟨e, hh, -, rfl⟩ | ⟨hh, hc, rfl⟩ := exec_cases h
  · exact hs
  · exact k.raise e hh hs
  · exact k.effect hc hh hs

theorem transact (k : KeptByActions P) {x : Txn} (hs : P s) (h : transact x s = .next t) : P t := by
  obtain ⟨a, -, rfl⟩ | ⟨a, v, -, -, rfl⟩ | ⟨a, v, i, -, -, -, -, he⟩ | ⟨a, v, r, -, hh, -, -, rfl⟩ |
    ⟨a, v, -, -, -, rfl⟩ | ⟨-, rfl⟩ := transact_cases h
  · exact k.returned _ hs
  · exact hs
  · exact k.exec hs he
  · exact k.raise _ hh hs
  · exact k.hostStore _ _ hs
  · exact k.resetEvent hs

theorem step (k : KeptByActions P) (hs : P s) (h : step s = .next t) : P t := by
  obtain ⟨-, rfl⟩ | ⟨x, rest, -, hx⟩ := step_cases h
  · exact hs
  · exact k.transact (k.pending rest hs) hx

/-- A run keeps what every action keeps, whatever the host issues between the steps (R169). -/
theorem reaches (k : KeptByActions P) (hs : P s) (h : Reaches s t) : P t := by
  induction h with
  | refl => exact hs
  | step _ hstep ih => exact k.step ih hstep
  | issue xs _ ih => exact k.pending _ ih

end KeptByActions

/-! ### The invariant -/

theorem resetWith_inv {cfg : Config} (h : cfg.legal) (f : Nat → Byte) : (State.resetWith cfg f).Inv :=
  ⟨h, ⟨fill_spans _ _ _, fill_spans _ _ _, fill_spans _ _ _⟩, .inl rfl, rfl⟩

theorem resetEvent_inv {s : State} (h : s.cfg.legal) : (resetEvent s).Inv :=
  ⟨h, ⟨fill_spans _ _ _, fill_spans _ _ _, fill_spans _ _ _⟩, .inl rfl, rfl⟩

/-- A code raised while `HALT = 0` sets `HALT` just when it is fatal (R147). -/
theorem raise_inv {s : State} (e : ResCode) (hh : s.HALT = false) (h : s.Inv) : (raise e s).Inv := by
  obtain ⟨hc, ha, hr, -⟩ := h
  exact ⟨hc, ha, hr, by simp [hh]⟩

theorem hostStore_arraysSpan {s : State} (a : Nat) (v : Byte) (h : s.arraysSpan) : (hostStore a v s).arraysSpan := by
  have ⟨hK, hRK, hD⟩ := h
  obtain ⟨-, e⟩ | ⟨-, e⟩ | ⟨-, e⟩ | ⟨-, e⟩ | ⟨-, -, e⟩ | e := hostStore_cases a v s <;> rw [e]
  · exact ⟨write_spans hK _ _, hRK, hD⟩
  · exact h
  · exact h
  · exact h
  · exact ⟨hK, hRK, write_spans hD _ _⟩
  · exact h

theorem hostStore_inv {s : State} (a : Nat) (v : Byte) (h : s.Inv) : (hostStore a v s).Inv := by
  obtain ⟨hc, ha, hr, hh⟩ := h
  exact ⟨by simpa using hc, hostStore_arraysSpan a v ha, by simpa [State.srndLegal] using hr, by simpa using hh⟩

theorem onData_arraysSpan {s : State} (f : List Byte → List Byte) (h : s.arraysSpan) : (onData f s).arraysSpan := by
  obtain ⟨hK, hRK, hD⟩ := h
  exact ⟨hK, hRK, store_spans hD _ _⟩

theorem expandKey_arraysSpan {s : State} (h : s.arraysSpan) : (expandKey s).arraysSpan := by
  obtain ⟨hK, hRK, hD⟩ := h
  exact ⟨hK, store_spans hRK _ _, hD⟩

theorem cipherEffect_arraysSpan {s : State} (g : List Byte → List Byte → Nat → List Byte) (h : s.arraysSpan) :
    (cipherEffect g s).arraysSpan := by
  obtain ⟨hK, hRK, hD⟩ := h
  exact ⟨hK, store_spans hRK _ _, store_spans (store_spans hD _ _) _ _⟩

/-- The rounds of a legal key, as `SRND` holds them, are a legal value of `SRND` (R16). -/
theorem expandKey_srndLegal {s : State} (hk : keyLegal s.KLEN = true) : (expandKey s).srndLegal := by
  rcases rounds_legal hk with h | h | h <;> simp [State.srndLegal, h]

/-- The effect of a command keeps the invariant, and its success makes `RES` 0 (R54). -/
theorem effectOf_inv {s : State} {i : Instr} (hc : firstCause (checksOf i) s = none) (hh : s.HALT = false)
    (h : s.Inv) : (succeed (effectOf i s)).Inv := by
  obtain ⟨hcfg, ha, hr, -⟩ := h
  obtain ⟨f, e⟩ | ⟨hk, e | ⟨g, e⟩⟩ := effectOf_cases hc <;> rw [e]
  · exact ⟨hcfg, onData_arraysSpan f ha, hr, hh⟩
  · exact ⟨hcfg, expandKey_arraysSpan ha, expandKey_srndLegal hk, hh⟩
  · exact ⟨hcfg, cipherEffect_arraysSpan g ha, expandKey_srndLegal hk, hh⟩

theorem inv_kept : KeptByActions State.Inv where
  pending _ h := h
  returned _ h := h
  raise := raise_inv
  effect := effectOf_inv
  hostStore := hostStore_inv
  resetEvent h := resetEvent_inv h.1

/-! ### What `SRND` says of `RK` -/

/-- A state with no schedule owes none (R16). -/
theorem scheduleHeld_of_SRND_zero {s : State} (h : s.SRND = 0) : s.scheduleHeld := fun hne => absurd h hne

/-- The schedule held is a matter of `SRND` and `RK` alone. -/
theorem scheduleHeld_congr {s t : State} (hS : t.SRND = s.SRND) (hR : t.RK = s.RK) (h : s.scheduleHeld) :
    t.scheduleHeld := by
  unfold State.scheduleHeld at *
  rwa [hS, hR]

/-- The key operand of a legal length has the length that belongs to its rounds (R5). -/
theorem key_length_of_keyLegal {s : State} (hk : keyLegal s.KLEN = true) : (key s).length = 4 * (rounds s - 6) := by
  rw [keyLegal_iff] at hk
  rcases hk with h | h | h <;> simp [key, rounds, h]

theorem expandKey_SRND_toNat {s : State} (hk : keyLegal s.KLEN = true) : (expandKey s).SRND.toNat = rounds s := by
  rcases rounds_legal hk with h | h | h <;> simp [h]

/-- After a key expansion `RK` holds the schedule of the key held (R84). -/
theorem expandKey_scheduleHeld {s : State} (hRK : s.RK.spans rkBase rkBytes) (hk : keyLegal s.KLEN = true) :
    (expandKey s).scheduleHeld := by
  intro _
  rw [expandKey_SRND_toNat hk]
  exact ⟨key s, key_length_of_keyLegal hk, expandKey_load hRK hk⟩

theorem cipherEffect_scheduleHeld {s : State} (g : List Byte → List Byte → Nat → List Byte)
    (hRK : s.RK.spans rkBase rkBytes) (hk : keyLegal s.KLEN = true) : (cipherEffect g s).scheduleHeld :=
  scheduleHeld_congr (by simp) (by simp) (expandKey_scheduleHeld hRK hk)

/-- A key expansion makes `SRND` and `RK` agree anew, and no other effect touches them. -/
theorem effectOf_scheduleHeld {s : State} {i : Instr} (hc : firstCause (checksOf i) s = none) (hi : s.Inv)
    (h : s.scheduleHeld) : (succeed (effectOf i s)).scheduleHeld := by
  obtain ⟨-, ⟨-, hRK, -⟩, -⟩ := hi
  refine scheduleHeld_congr (succeed_SRND _) (succeed_RK _) ?_
  obtain ⟨f, e⟩ | ⟨hk, e | ⟨g, e⟩⟩ := effectOf_cases hc <;> rw [e]
  · exact scheduleHeld_congr (onData_SRND f s) (onData_RK f s) h
  · exact expandKey_scheduleHeld hRK hk
  · exact cipherEffect_scheduleHeld g hRK hk

/-- A legal state that holds what its `SRND` says. -/
abbrev State.Sound (s : State) : Prop := s.Inv ∧ s.scheduleHeld

/-- The schedule is kept together with the invariant: a key expansion needs `RK` whole to hold what is stored. -/
theorem sound_kept : KeptByActions State.Sound where
  pending _ h := h
  returned _ h := h
  raise e hh h := ⟨raise_inv e hh h.1, scheduleHeld_congr (raise_SRND e _) (raise_RK e _) h.2⟩
  effect hc hh h := ⟨effectOf_inv hc hh h.1, effectOf_scheduleHeld hc h.1 h.2⟩
  hostStore a v h := ⟨hostStore_inv a v h.1, scheduleHeld_congr (hostStore_SRND ..) (hostStore_RK ..) h.2⟩
  resetEvent h := ⟨resetEvent_inv h.1.1, scheduleHeld_of_SRND_zero rfl⟩

theorem resetWith_sound {cfg : Config} (h : cfg.legal) (f : Nat → Byte) : (State.resetWith cfg f).Sound :=
  ⟨resetWith_inv h f, scheduleHeld_of_SRND_zero rfl⟩

/-! ### The obligations -/

/-- Settles O50: each action that a step is made of keeps the invariant. -/
theorem stepKeepsTheInvariant : Obligations.StepKeepsTheInvariant :=
  fun _ _ => inv_kept.step

/-- Settles O49: the arrays are filled over exactly their windows, and `SRND`, `RES` and `HALT` are 0. -/
theorem legalAtReset : Obligations.LegalAtReset :=
  ⟨resetWith_inv (by decide) _, fun _ f hc => resetWith_sound hc f⟩

/-- Settles O52, by induction on the run from reset. -/
theorem everyReachableStateIsLegal : Obligations.EveryReachableStateIsLegal :=
  fun _ f _ hc => sound_kept.reaches (resetWith_sound hc f)

end Sys2Proof.Machine

/-! ## Scope: what commands and Reset do to the state

A command reads and writes only what its kind allows; the state after reset, and what a Reset leaves in the arrays. -/

namespace Sys2Proof.Machine

/-! ### The three kinds of command -/

/-- A command that checks the length has its effect only with one that the buffer holds (R144). -/
theorem len_le_of_checks {cs : List (State → Option ResCode)} {s : State} (hm : lenCheck ∈ cs)
    (h : firstCause cs s = none) : s.LEN.toNat ≤ s.dbufBytes := by
  simpa [lenCheck] using List.findSome?_eq_none_iff.1 h _ hm

/-- A command that checks the alignment has its effect only with whole blocks (R145). -/
theorem len_aligned_of_checks {cs : List (State → Option ResCode)} {s : State} (hm : alignCheck ∈ cs)
    (h : firstCause cs s = none) : s.LEN.toNat % 16 = 0 := by
  simpa [alignCheck] using List.findSome?_eq_none_iff.1 h _ hm

theorem checks_of_primitive {i : Instr} (hi : i ∉ [Instr.kexp, .enc, .dec]) :
    lenCheck ∈ checksOf i ∧ alignCheck ∈ checksOf i := by
  cases i with
  | kexp | enc | dec => simp at hi
  | ark r => exact ⟨.head _, .tail _ (.head _)⟩
  | subbytes | invsubbytes | shiftrows | invshiftrows | mixcolumns | invmixcolumns =>
    exact ⟨.head _, .tail _ (.head _)⟩

/-- A primitive maps a function over the blocks of the data; of the state only `RK` enters it (R97-R106). -/
theorem effectOf_primitive {i : Instr} (hi : i ∉ [Instr.kexp, .enc, .dec]) (s : State) :
    ∃ f, KeepsBlocks f ∧ ∀ s' : State, s'.RK = s.RK → effectOf i s' = onData f s' := by
  cases i with
  | kexp | enc | dec => simp at hi
  | ark r =>
    refine ⟨_, addRoundKey_keeps (roundKey_length s r), fun s' h => ?_⟩
    simp only [effectOf, arkEffect, roundKey, h]
  | subbytes => exact ⟨_, subBytes_keeps .enc, fun _ _ => rfl⟩
  | invsubbytes => exact ⟨_, subBytes_keeps .dec, fun _ _ => rfl⟩
  | shiftrows => exact ⟨_, shiftRows_keeps .enc, fun _ _ => rfl⟩
  | invshiftrows => exact ⟨_, shiftRows_keeps .dec, fun _ _ => rfl⟩
  | mixcolumns => exact ⟨_, mixColumns_keeps .enc, fun _ _ => rfl⟩
  | invmixcolumns => exact ⟨_, mixColumns_keeps .dec, fun _ _ => rfl⟩

/-- A command that passes its checks is of one of three kinds, each with what its checks have established: a primitive,
KEXP, or a pipeline. -/
theorem effectOf_kinds {i : Instr} {s : State} (h : firstCause (checksOf i) s = none) :
    (i ∉ [Instr.kexp, .enc, .dec] ∧ s.LEN.toNat ≤ s.dbufBytes ∧ s.LEN.toNat % 16 = 0 ∧
      ∃ f, KeepsBlocks f ∧ ∀ s' : State, s'.RK = s.RK → effectOf i s' = onData f s') ∨
    (i = .kexp ∧ effectOf i = expandKey) ∨
    (i ∈ [Instr.enc, .dec] ∧ keyLegal s.KLEN = true ∧ s.LEN.toNat ≤ s.dbufBytes ∧
      ∃ g, KeepsBuffers g ∧ effectOf i = cipherEffect g) := by
  by_cases hi : i ∈ [Instr.kexp, .enc, .dec]
  · right
    simp only [List.mem_cons, List.not_mem_nil, or_false] at hi
    obtain rfl | rfl | rfl := hi
    · exact .inl ⟨rfl, rfl⟩
    · exact .inr ⟨.head _, keyLegal_of_checks (.head _) h, len_le_of_checks (.tail _ (.head _)) h, _, encrypt_length, rfl⟩
    · exact .inr ⟨.tail _ (.head _), keyLegal_of_checks (.head _) h, len_le_of_checks (.tail _ (.head _)) h, _,
        decrypt_length, rfl⟩
  · obtain ⟨hl, ha⟩ := checks_of_primitive hi
    exact .inl ⟨hi, len_le_of_checks hl h, len_aligned_of_checks ha h, effectOf_primitive hi s⟩

/-! ### Two runs of one command -/

/-- No check reads a byte of `K` or `D` (R142-R146). -/
theorem firstCause_arrays (i : Instr) (s : State) (k d : Memory) :
    firstCause (checksOf i) { s with K := k, D := d } = firstCause (checksOf i) s := by
  cases i <;> rfl

/-- Two states that share `HALT` and the causes of a command, and a relation that a raise and the command's effect take
from the one to the other, are related after the command. -/
theorem exec_related {R : State → State → Prop} {i : Instr} {s s' t : State} (hs : R s s') (hh : s'.HALT = s.HALT)
    (hc : firstCause (checksOf i) s' = firstCause (checksOf i) s) (hr : ∀ e, R (raise e s) (raise e s'))
    (he : firstCause (checksOf i) s = none → R (succeed (effectOf i s)) (succeed (effectOf i s')))
    (h : exec i s = .next t) : ∃ t', exec i s' = .next t' ∧ R t t' := by
  rw [exec_eq_command]
  obtain ⟨h1, rfl⟩ | ⟨e, h0, h1, rfl⟩ | ⟨h0, h1, rfl⟩ := exec_cases h
  · exact ⟨s', command_halted (hh.trans h1), hs⟩
  · exact ⟨_, command_raises (hh.trans h0) (hc.trans h1), hr e⟩
  · exact ⟨_, command_succeeds (hh.trans h0) (hc.trans h1), he h1⟩

/-! ### The key operand -/

/-- The expansion reads no byte of `K` from `KLEN` on (R11, R84). -/
theorem expandKey_of_key_eq {s : State} {k : Memory} (hk : key { s with K := k } = key s) :
    expandKey { s with K := k } = { expandKey s with K := k } := by
  simp only [expandKey, hk, rounds]

theorem cipherEffect_of_key_eq (g : List Byte → List Byte → Nat → List Byte) {s : State} {k : Memory}
    (hk : key { s with K := k } = key s) : cipherEffect g { s with K := k } = { cipherEffect g s with K := k } := by
  have e : expandKey (padData { s with K := k }) = { expandKey (padData s) with K := k } :=
    expandKey_of_key_eq (s := padData s) hk
  simp only [cipherEffect, e]
  rfl

/-- Of `K` a command reads the key operand only (R11). -/
theorem effectOf_of_key_eq {i : Instr} {s : State} {k : Memory} (hc : firstCause (checksOf i) s = none)
    (hk : key { s with K := k } = key s) : effectOf i { s with K := k } = { effectOf i s with K := k } := by
  obtain ⟨-, -, -, f, -, hf⟩ | ⟨-, e⟩ | ⟨-, -, -, g, -, e⟩ := effectOf_kinds hc
  · rw [hf s rfl, hf { s with K := k } rfl]; rfl
  · rw [e, expandKey_of_key_eq hk]
  · rw [e, cipherEffect_of_key_eq g hk]

/-! ### The data operand -/

/-- Two states that differ in `D` only, and there from `LEN` on only. -/
def SameData (s s' : State) : Prop :=
  s' = { s with D := s'.D } ∧ s'.D.load dBase s.LEN.toNat = s.D.load dBase s.LEN.toNat

theorem onData_load {f : List Byte → List Byte} (hf : KeepsBlocks f) {s : State} (hD : s.D.spans dBase s.dbufBytes)
    (h1 : s.LEN.toNat ≤ s.dbufBytes) (h2 : s.LEN.toNat % 16 = 0) :
    (onData f s).D.load dBase s.LEN.toNat = mapBlocks f (data s s.LEN.toNat) := by
  have hl : (mapBlocks f (data s s.LEN.toNat)).length = s.LEN.toNat := by
    rw [mapBlocks_length hf (by rwa [data_length]), data_length]
  have h := load_store_same hD (bs := mapBlocks f (data s s.LEN.toNat)) (Nat.le_refl _) (by omega)
  rwa [hl] at h

/-- Of `D` a command reads the data operand only, and what it leaves there is a function of it (R14). -/
theorem effectOf_sameData {i : Instr} {s : State} {d : Memory} (hi : s.Inv)
    (hd : d.spans dBase s.dbufBytes) (hc : firstCause (checksOf i) s = none) (h : SameData s { s with D := d }) :
    SameData (effectOf i s) (effectOf i { s with D := d }) := by
  obtain ⟨hcfg, ⟨-, hRK, hD⟩, -, -⟩ := hi
  obtain ⟨-, hdata⟩ := h
  change data { s with D := d } s.LEN.toNat = data s s.LEN.toNat at hdata
  obtain ⟨-, h1, h2, f, hf, e⟩ | ⟨-, e⟩ | ⟨-, hk, h1, g, hg, e⟩ := effectOf_kinds hc
  · rw [e s rfl, e { s with D := d } rfl]
    refine ⟨rfl, ?_⟩
    calc (onData f { s with D := d }).D.load dBase s.LEN.toNat
        = mapBlocks f (data { s with D := d } s.LEN.toNat) := onData_load hf (s := { s with D := d }) hd h1 h2
      _ = mapBlocks f (data s s.LEN.toNat) := by rw [hdata]
      _ = (onData f s).D.load dBase s.LEN.toNat := (onData_load hf hD h1 h2).symm
  · rw [e]
    exact ⟨rfl, hdata⟩
  · rw [e]
    have hlen : (cipherEffect g s).LEN.toNat = ceil16 s.LEN.toNat := padData_LEN_toNat hcfg h1
    refine ⟨rfl, ?_⟩
    rw [hlen]
    calc (cipherEffect g { s with D := d }).D.load dBase (ceil16 s.LEN.toNat)
        = g (pad (data { s with D := d } s.LEN.toNat)) (expand (key s)) (rounds s) :=
          cipherEffect_load hg (s := { s with D := d }) hd hRK hk h1
      _ = g (pad (data s s.LEN.toNat)) (expand (key s)) (rounds s) := by rw [hdata]
      _ = (cipherEffect g s).D.load dBase (ceil16 s.LEN.toNat) := (cipherEffect_load hg hD hRK hk h1).symm

/-! ### No data -/

/-- A primitive acts on no byte of an empty buffer. -/
theorem onData_of_LEN_zero (f : List Byte → List Byte) {s : State} (h : s.LEN = 0) : onData f s = s := by
  have hd : data s s.LEN.toNat = [] := by simp [h, data, Memory.load]
  rw [onData, hd, mapBlocks_nil, store_nil]

/-! ### Reset -/

theorem fill_congr {base n : Nat} {f g : Nat → Byte} (h : ∀ a, base ≤ a → a < base + n → f a = g a) :
    Memory.fill base n f = Memory.fill base n g := by
  refine List.map_congr_left fun a ha => ?_
  obtain ⟨h1, h2⟩ := List.mem_range'_1.1 ha
  rw [h a h1 h2]

/-- A Reset depends on its filling at the addresses of the three arrays only. -/
theorem resetFilled_congr {f g : Nat → Byte} {s : State}
    (h : ∀ a, a ≤ 0x1F ∨ (0x100 ≤ a ∧ a ≤ 0x1EF) ∨ (0x10000 ≤ a ∧ a < 0x10000 + s.dbufBytes) → f a = g a) :
    resetFilled f s = resetFilled g s := by
  have hK : Memory.fill kBase kBytes f = Memory.fill kBase kBytes g :=
    fill_congr fun a _ h2 => h a (by simp only [kBase, kBytes] at h2; omega)
  have hRK : Memory.fill rkBase rkBytes f = Memory.fill rkBase rkBytes g :=
    fill_congr fun a h1 h2 => h a (by simp only [rkBase, rkBytes] at h1 h2; omega)
  have hD : Memory.fill dBase s.dbufBytes f = Memory.fill dBase s.dbufBytes g :=
    fill_congr fun a h1 h2 => h a (.inr (.inr ⟨h1, h2⟩))
  simp only [resetFilled, hK, hRK, hD]

/-- The byte that the engine held at an address, looked up in the bytes held (0x00 where it held none). -/
def keptByte (held : List (Nat × Byte)) (a : Nat) : Byte := (held.lookup a).getD 0

theorem keptByte_heldBytes {s : State} (h : s.arraysSpan) {a : Nat}
    (ha : a ≤ 0x1F ∨ (0x100 ≤ a ∧ a ≤ 0x1EF) ∨ (0x10000 ≤ a ∧ a < 0x10000 + s.dbufBytes)) :
    keptByte (heldBytes s) a = memRead s a := by
  rw [keptByte, heldBytes_lookup h ha, Option.getD_some]

/-! ### Running a command byte -/

theorem decode_encode {i : Instr} (h : i.wellFormed = true) : decode (encode i) = .ok i := by
  cases i with
  | kexp => exact Laws.EncodeDecode.kexp h
  | ark r => exact Laws.EncodeDecode.ark r h
  | subbytes => exact Laws.EncodeDecode.subbytes h
  | invsubbytes => exact Laws.EncodeDecode.invsubbytes h
  | shiftrows => exact Laws.EncodeDecode.shiftrows h
  | invshiftrows => exact Laws.EncodeDecode.invshiftrows h
  | mixcolumns => exact Laws.EncodeDecode.mixcolumns h
  | invmixcolumns => exact Laws.EncodeDecode.invmixcolumns h
  | enc => exact Laws.EncodeDecode.enc h
  | dec => exact Laws.EncodeDecode.dec h

@[simp] theorem tableByte_toNat (c : Byte) : tableByte 8 c.toNat = c := by
  rw [tableByte, Nat.mod_eq_of_lt c.isLt, BitVec.ofNat_toNat, BitVec.setWidth_eq]

/-- A halted engine keeps its state at a command (R150). -/
theorem exec_halted {i : Instr} {s : State} (h : s.HALT = true) : exec i s = .next s := by
  rw [exec_eq_command, command_halted h]

theorem exec_raises {i : Instr} {s : State} {e : ResCode} (h : s.HALT = false)
    (hc : firstCause (checksOf i) s = some e) : exec i s = .next (raise e s) := by
  rw [exec_eq_command, command_raises h hc]

theorem executeCommand_of_decode {c : Byte} {i : Instr} (h : decode c = .ok i) (s : State) :
    executeCommand c s = exec i s := by
  cases hh : s.HALT with
  | true => simp [executeCommand, hh, exec_halted]
  | false => simp [executeCommand, hh, h]

/-- A write to `CMD` is the execution of its byte, halted or not (R32). -/
theorem memWrite_cmd (c : Byte) (s : State) : memWrite cmdAddr c s = executeCommand c s := by
  cases hh : s.HALT <;> simp [memWrite, executeCommand, hh]

theorem step_cmd_write {s : State} {c : Byte} {rest : List Txn} (hp : s.pending = .memWrite 0x00024 c :: rest) :
    step s = executeCommand c { s with pending := rest } := by
  rw [step, hp]
  exact memWrite_cmd c _

/-! ### The obligations -/

/-- Settles O51: every action keeps the schedule together with the invariant. -/
theorem stepKeepsTheSchedule : Obligations.StepKeepsTheSchedule :=
  fun _ _ hi hs h => (sound_kept.step ⟨hi, hs⟩ h).2

/-- Settles O37, by the three outcomes of a command and the three kinds of effect. -/
theorem commandsWriteOnlyTheirState : Obligations.CommandsWriteOnlyTheirState := by
  intro i s t h
  obtain ⟨-, rfl⟩ | ⟨e, hh, -, rfl⟩ | ⟨hh, hc, rfl⟩ := exec_cases h
  · simp
  · simp [hh]
  · obtain ⟨hi, -, -, f, -, e⟩ | ⟨rfl, e⟩ | ⟨hi, -, -, g, -, e⟩ := effectOf_kinds hc
    · have : i ≠ .kexp := fun h => hi (h ▸ .head _)
      simp [e s rfl, hh, this]
    · simp [e, hh]
    · simp only [List.mem_cons, List.not_mem_nil, or_false] at hi
      obtain rfl | rfl := hi <;> simp [e, hh]

/-- Settles O38: a primitive stores `LEN` bytes, a pipeline `ceil16(LEN)`, and nothing else stores into `D`. -/
theorem bytesBeyondTheDataAreKept : Obligations.BytesBeyondTheDataAreKept := by
  rintro i s t a ⟨-, ⟨-, hRK, hD⟩, -, -⟩ h
  obtain ⟨-, rfl⟩ | ⟨e, -, -, rfl⟩ | ⟨-, hc, rfl⟩ := exec_cases h
  · exact ⟨fun _ _ => rfl, fun _ => rfl⟩
  · exact ⟨fun _ _ => rfl, fun _ => rfl⟩
  · rw [succeed_D]
    obtain ⟨-, -, h2, f, hf, e⟩ | ⟨-, e⟩ | ⟨hi, hk, h1, g, hg, e⟩ := effectOf_kinds hc
    · rw [e s rfl]
      exact ⟨fun _ ha => onData_outside hf h2 (.inr ha), fun ha => onData_outside hf h2 (.inr (by omega))⟩
    · rw [e]
      exact ⟨fun _ _ => rfl, fun _ => rfl⟩
    · rw [e]
      exact ⟨fun hn => absurd hi hn, fun ha => cipherEffect_outside hg hD hRK hk h1 (.inr ha)⟩

/-- Settles O39: two runs whose states differ in `K` only, with one key operand, stay so. -/
theorem unusedKeyBytesAreIgnored : Obligations.UnusedKeyBytesAreIgnored := by
  intro i s t k hk h
  obtain ⟨t', ht', rfl⟩ := exec_related (R := fun t t' => t' = { t with K := k }) (s' := { s with K := k }) rfl rfl
    (firstCause_arrays i s k s.D) (fun _ => rfl) (fun hc => by rw [effectOf_of_key_eq hc hk]; rfl) h
  exact ht'

/-- Settles O40: two runs from states with the same data stay so. -/
theorem bytesBeyondTheDataAreUnread : Obligations.BytesBeyondTheDataAreUnread := by
  intro i s t d hi ⟨_, _, hd⟩ hl h
  have hs : SameData s { s with D := d } := ⟨rfl, hl⟩
  obtain ⟨t', ht', e, hl'⟩ := exec_related (R := SameData) hs rfl (firstCause_arrays i s s.K d) (fun _ => ⟨rfl, hl⟩)
    (fun hc => by
      obtain ⟨e, hl'⟩ := effectOf_sameData hi hd hc hs
      exact ⟨by rw [e]; rfl, hl'⟩) h
  exact ⟨t'.D, e ▸ ht', hl'⟩

/-- Settles O48: `KLEN` and `SRND` are 0, so that the checks of keys and rounds fail, and `LEN` is 0. -/
theorem resetStateIsHarmless : Obligations.ResetStateIsHarmless := by
  refine ⟨fun cfg f => ?_, { nblk := 4 }, _, by decide, rfl⟩
  intro s
  have hh : s.HALT = false := rfl
  have hkey (cs : List (State → Option ResCode)) : firstCause (keyCheck :: cs) s = some .eKeysize := rfl
  have hround (r : Nat) : firstCause (arkChecks r) s = some .fRound := by
    simp [firstCause_ark, s, State.resetWith]
  have hprim (g : List Byte → List Byte) : command primChecks (onData g) s = .next { s with RES := .ok } := by
    rw [command_succeeds hh (by simp [firstCause_prim, s, State.resetWith]), onData_of_LEN_zero g rfl]
    rfl
  refine ⟨fun i hi => ?_, fun i hi => ?_, fun r => ?_⟩
  · simp only [List.mem_cons, List.not_mem_nil, or_false] at hi
    obtain rfl | rfl | rfl := hi <;> exact exec_raises hh (hkey _)
  · simp only [List.mem_cons, List.not_mem_nil, or_false] at hi
    obtain rfl | rfl | rfl | rfl | rfl | rfl := hi <;> exact hprim _
  · exact exec_raises hh (hround r)

/-- Settles O53: the old bytes are one filling, since the bytes held list every byte of the arrays. -/
theorem resetMayKeepOrReplaceTheArrays : Obligations.ResetMayKeepOrReplaceTheArrays := by
  refine ⟨fun s rest _ hp => ?_, fun _ => keptByte, fun s hi => ?_⟩
  · have hstep : step s = .next (resetFilled (Config.resetByte s.resets (heldBytes s)) { s with pending := rest }) := by
      rw [step, hp]; rfl
    refine ⟨hstep, fun t ht a ha => ?_, fun f a ha => memRead_resetFilled f _ ha⟩
    rw [hstep] at ht
    cases ht
    exact memRead_resetFilled _ _ ha
  · have ha := hi.2.1
    have hkept : resetFilled (keptByte (heldBytes s)) s = resetFilled (memRead s) s :=
      resetFilled_congr fun _ => keptByte_heldBytes ha
    refine ⟨fun _ => keptByte_heldBytes ha, ?_⟩
    rw [hkept]
    exact resetFilled_held ha

/-- Settles O44: the byte of a well-formed command decodes to it, so that the second clause follows from the
first. -/
theorem stepRunsTheDecodedCommand : Obligations.StepRunsTheDecodedCommand := by
  have run (s : State) (c : Byte) (i : Instr) (rest : List Txn) (hp : s.pending = .memWrite 0x00024 c :: rest)
      (hd : decode c = .ok i) : step s = exec i { s with pending := rest } := by
    rw [step_cmd_write hp, executeCommand_of_decode hd]
  exact ⟨run, fun s i hw => run _ (encode i) i s.pending (by simp [State.withFetchWord]) (decode_encode hw)⟩

/-- Settles O47: what a filled window reads as is its filling. -/
theorem resetValues : Obligations.ResetValues := by
  intro cfg f s
  exact ⟨rfl, rfl, rfl, rfl, rfl, fun a h => read_fill f (Nat.zero_le a) (by simpa using h),
    fun _ h1 h2 => read_fill f h1 h2, fun _ h1 h2 => read_fill f h1 h2⟩

end Sys2Proof.Machine

/-! ## Scope: the host port

The bytes of the address map of R33, read and written by the host, and what a transaction leaves of the engine. -/

namespace Sys2Proof.Machine

/-! ### The bytes of the registers -/

theorem extractLsb'_lo_toNat (len : BitVec 16) : (len.extractLsb' 0 8).toNat = len.toNat % 256 := by
  simp

theorem extractLsb'_hi_toNat (len : BitVec 16) : (len.extractLsb' 8 8).toNat = len.toNat / 256 := by
  have := len.isLt
  simp only [BitVec.extractLsb'_toNat, Nat.shiftRight_eq_div_pow]
  omega

/-- Two bytes side by side, as numbers (R8). -/
theorem append_bytes_toNat (hi lo : Byte) : (hi ++ lo).toNat = 256 * hi.toNat + lo.toNat := by
  rw [BitVec.toNat_append, ← Nat.shiftLeft_add_eq_or_of_lt lo.isLt, Nat.shiftLeft_eq]
  omega

theorem setLenLo_toNat (len : BitVec 16) (v : Byte) :
    (setLenLo len v).toNat = 256 * (len.toNat / 256) + v.toNat := by
  rw [← extractLsb'_hi_toNat len]
  exact append_bytes_toNat _ _

theorem setLenHi_toNat (len : BitVec 16) (v : Byte) : (setLenHi len v).toNat = 256 * v.toNat + len.toNat % 256 := by
  rw [← extractLsb'_lo_toNat len]
  exact append_bytes_toNat _ _

theorem status_toNat (s : State) : (status s).toNat = (if s.HALT then 128 else 0) + s.RES.number.toNat := by
  unfold status
  cases s.HALT <;> cases s.RES <;> rfl

/-! ### The address map of reads (R31, R33) -/

section Reads
variable {s : State} {a : Nat}

theorem memRead_K (h : a ≤ 0x0001F) : memRead s a = s.K.read a := if_pos h

@[simp] theorem memRead_KLEN : memRead s 0x00020 = s.KLEN := rfl

@[simp] theorem memRead_LEN_lo : memRead s 0x00022 = s.LEN.extractLsb' 0 8 := rfl

@[simp] theorem memRead_LEN_hi : memRead s 0x00023 = s.LEN.extractLsb' 8 8 := rfl

@[simp] theorem memRead_STATUS : memRead s 0x00025 = status s := rfl

@[simp] theorem memRead_SRND : memRead s 0x00026 = s.SRND := rfl

theorem memRead_RK (h1 : 0x00100 ≤ a) (h2 : a ≤ 0x001EF) : memRead s a = s.RK.read a := by
  unfold memRead
  iterate 7 rw [if_neg (by omega)]
  exact if_pos ⟨h1, h2⟩

theorem memRead_D (h1 : 0x10000 ≤ a) (h2 : a < 0x10000 + s.dbufBytes) : memRead s a = s.D.read a := by
  unfold memRead
  iterate 8 rw [if_neg (by omega)]
  exact if_pos ⟨h1, h2⟩

/-- `CMD` and the unmapped addresses read 0x00. -/
theorem memRead_unmapped (h : a = 0x00021 ∨ a = 0x00024 ∨ (0x00027 ≤ a ∧ a ≤ 0x000FF) ∨
    (0x001F0 ≤ a ∧ a ≤ 0x0FFFF) ∨ 0x10000 + s.dbufBytes ≤ a) : memRead s a = 0x00 := by
  by_cases hcmd : a = 0x00024
  · rw [hcmd]; rfl
  · unfold memRead
    iterate 9 rw [if_neg (by omega)]

/-- Only `STATUS` shows `HALT` (R44, R150). -/
theorem memRead_of_HALT (b : Bool) (h : a ≠ 0x00025) : memRead { s with HALT := b } a = memRead s a := by
  unfold memRead
  rw [if_neg h, if_neg h]
  rfl

end Reads

/-! ### The address map of writes (R32, R33) -/

section Writes
variable {s : State} {a : Nat} {v : Byte}

theorem hostStore_of_K (h : a ≤ 0x0001F) : hostStore a v s = { s with K := s.K.write a v } := if_pos h

theorem hostStore_of_KLEN : hostStore 0x00020 v s = { s with KLEN := v } := rfl

theorem hostStore_of_LEN_lo : hostStore 0x00022 v s = { s with LEN := setLenLo s.LEN v } := rfl

theorem hostStore_of_LEN_hi : hostStore 0x00023 v s = { s with LEN := setLenHi s.LEN v } := rfl

theorem hostStore_of_D (h1 : 0x10000 ≤ a) (h2 : a < 0x10000 + s.dbufBytes) :
    hostStore a v s = { s with D := s.D.write a v } := by
  unfold hostStore
  iterate 4 rw [if_neg (by omega)]
  exact if_pos ⟨h1, h2⟩

/-- A location that is not writable keeps the state (R34). -/
theorem hostStore_of_inert (h : a = 0x00021 ∨ (0x00024 ≤ a ∧ a ≤ 0x0FFFF) ∨ 0x10000 + s.dbufBytes ≤ a) :
    hostStore a v s = s := by
  unfold hostStore
  iterate 5 rw [if_neg (by omega)]

@[simp] theorem hostStore_pending (a : Nat) (v : Byte) (s : State) : (hostStore a v s).pending = s.pending := by
  rw [hostStore_frame]

theorem memWrite_halted (h : s.HALT = true) : memWrite a v s = .next s := by
  simp [memWrite, h]

theorem memWrite_store (h : s.HALT = false) (ha : a ≠ cmdAddr) : memWrite a v s = .next (hostStore a v s) := by
  simp [memWrite, h, ha]

end Writes

/-! ### A transaction -/

/-- A transaction leaves what is pending behind it, and the capacity (R39, R22). -/
theorem transact_keeps_pending_cfg {x : Txn} {s t : State} (h : transact x s = .next t) :
    t.pending = s.pending ∧ t.cfg = s.cfg := by
  obtain ⟨a, -, rfl⟩ | ⟨a, v, -, -, rfl⟩ | ⟨a, v, i, -, -, -, -, he⟩ | ⟨a, v, r, -, -, -, -, rfl⟩ |
    ⟨a, v, -, -, -, rfl⟩ | ⟨-, rfl⟩ := transact_cases h
  · exact ⟨rfl, rfl⟩
  · exact ⟨rfl, rfl⟩
  · obtain ⟨-, -, hcfg, hpending, -⟩ := commandsWriteOnlyTheirState i s t he
    exact ⟨hpending, hcfg⟩
  · exact ⟨rfl, rfl⟩
  · exact ⟨hostStore_pending .., hostStore_cfg ..⟩
  · exact ⟨rfl, rfl⟩

/-- Of the transactions only Reset clears `HALT` (R44). -/
theorem transact_clears_HALT {x : Txn} {s t : State} (hh : s.HALT = true) (h : transact x s = .next t)
    (ht : t.HALT = false) : x = .reset := by
  obtain ⟨a, -, rfl⟩ | ⟨a, v, -, -, rfl⟩ | ⟨a, v, i, -, h0, -⟩ | ⟨a, v, r, -, h0, -⟩ | ⟨a, v, -, h0, -⟩ | ⟨hx, -⟩ :=
    transact_cases h
  · simp [hh] at ht
  · simp [hh] at ht
  · simp [hh] at h0
  · simp [hh] at h0
  · simp [hh] at h0
  · exact hx

/-! ### A step of the host port -/

section Steps
variable {s : State} {a : Addr} {v : Byte} {rest : List Txn}

theorem step_of_idle (hp : s.pending = []) : step s = .next s := by
  rw [step, hp]

theorem step_of_pending {x : Txn} (hp : s.pending = x :: rest) : step s = transact x { s with pending := rest } := by
  rw [step, hp]

theorem step_memRead (hp : s.pending = .memRead a :: rest) :
    step s = .next { s with pending := rest, returned := s.returned ++ [memRead s a.toNat] } :=
  step_of_pending hp

theorem step_memWrite (hp : s.pending = .memWrite a v :: rest) :
    step s = memWrite a.toNat v { s with pending := rest } :=
  step_of_pending hp

theorem step_memWrite_halted (hp : s.pending = .memWrite a v :: rest) (hh : s.HALT = true) :
    step s = .next { s with pending := rest } :=
  (step_memWrite hp).trans (memWrite_halted hh)

theorem step_memWrite_store (hp : s.pending = .memWrite a v :: rest) (hh : s.HALT = false)
    (ha : a.toNat ≠ 0x00024) : step s = .next (hostStore a.toNat v { s with pending := rest }) :=
  (step_memWrite hp).trans (memWrite_store hh ha)

/-- A write to a read-only or unmapped location has no effect, halted or not (R34). -/
theorem step_memWrite_inert (hp : s.pending = .memWrite a v :: rest)
    (ha : a.toNat = 0x00021 ∨ (0x00025 ≤ a.toNat ∧ a.toNat ≤ 0x0FFFF) ∨ 0x10000 + s.dbufBytes ≤ a.toNat) :
    step s = .next { s with pending := rest } := by
  by_cases hh : s.HALT = true
  · exact step_memWrite_halted hp hh
  · have hin : a.toNat = 0x00021 ∨ (0x00024 ≤ a.toNat ∧ a.toNat ≤ 0x0FFFF) ∨ 0x10000 + s.dbufBytes ≤ a.toNat := by
      omega
    rw [step_memWrite_store hp (Bool.eq_false_of_not_eq_true hh) (by omega),
      hostStore_of_inert (s := { s with pending := rest }) hin]

end Steps

/-! ### The obligations -/

/-- Settles O42: the write clause by clause along the address map. -/
theorem memWriteFollowsTheMap : Obligations.MemWriteFollowsTheMap := by
  rintro s a v rest ⟨-, ⟨hK, -, hD⟩, -, -⟩ hp
  refine ⟨step_memWrite_halted hp, fun hh => ?_⟩
  have store (ha : a.toNat ≠ 0x00024) := step_memWrite_store hp hh ha
  refine ⟨fun ha => ?_, fun ha => ?_, fun ha => ?_, fun ha => ?_, fun ha => ?_, fun h1 h2 => ?_,
    step_memWrite_inert hp⟩
  · refine ⟨s.K.write a.toNat v, ?_, read_write_same hK (Nat.zero_le _) (by simp only [kBase, kBytes]; omega) v,
      fun x hx => read_write_other s.K hx v⟩
    rw [store (by omega), hostStore_of_K ha]
  · rw [store (by omega), ha, hostStore_of_KLEN]
  · refine ⟨setLenLo s.LEN v, ?_, setLenLo_toNat s.LEN v⟩
    rw [store (by omega), ha, hostStore_of_LEN_lo]
  · refine ⟨setLenHi s.LEN v, ?_, setLenHi_toNat s.LEN v⟩
    rw [store (by omega), ha, hostStore_of_LEN_hi]
  · rw [step_memWrite hp, ha]
    exact memWrite_cmd v _
  · refine ⟨s.D.write a.toNat v, ?_, read_write_same hD h1 h2 v, fun x hx => read_write_other s.D hx v⟩
    rw [store (by omega), hostStore_of_D (s := { s with pending := rest }) h1 h2]

/-- Settles O36: of the transactions only Reset clears `HALT`, and only `STATUS` shows it. -/
theorem haltedEngineIgnoresWrites : Obligations.HaltedEngineIgnoresWrites := by
  intro s hh
  refine ⟨fun a v rest hp => step_memWrite_halted hp hh, fun a ha => (memRead_of_HALT false ha).symm,
    fun t h ht => ?_, fun rest hp => ⟨_, step_of_pending hp, rfl⟩⟩
  obtain ⟨-, rfl⟩ | ⟨x, rest, hp, hx⟩ := step_cases h
  · simp [hh] at ht
  · exact ⟨rest, transact_clears_HALT (s := { s with pending := rest }) hh hx ht ▸ hp⟩

/-- Settles O45: every transaction answers, and keeps those behind it. -/
theorem everyTransactionCompletesInOrder : Obligations.EveryTransactionCompletesInOrder := by
  intro s
  refine ⟨?_, step_of_idle, fun xs => issue_pending xs s⟩
  cases hp : s.pending with
  | nil => exact ⟨s, step_of_idle hp, hp, rfl⟩
  | cons x rest =>
    obtain ⟨t, ht⟩ := transact_next x { s with pending := rest }
    exact ⟨t, (step_of_pending hp).trans ht, transact_keeps_pending_cfg ht⟩

/-- Settles O41: the byte appended is the one `memRead` returns, clause by clause along the address map. -/
theorem memReadFollowsTheMap : Obligations.MemReadFollowsTheMap := by
  intro s a rest hp
  refine ⟨memRead s a.toNat, step_memRead hp, memRead_K, fun ha => ?_, fun ha => ?_, fun ha => ?_, fun ha => ?_,
    fun ha => ?_, memRead_RK, memRead_D, memRead_unmapped⟩
  · rw [ha, memRead_KLEN]
  · rw [ha, memRead_LEN_lo, extractLsb'_lo_toNat]
  · rw [ha, memRead_LEN_hi, extractLsb'_hi_toNat]
  · rw [ha, memRead_STATUS, status_toNat]
  · rw [ha, memRead_SRND]

/-- Settles O43: a reserved address is among the unmapped, and none of those named is `CMD` or writable. -/
theorem reservedAndReadOnlyAreInert : Obligations.ReservedAndReadOnlyAreInert := by
  intro s a ha
  have hn : (BitVec.ofNat 17 a).toNat = a := by rw [BitVec.toNat_ofNat, Nat.mod_eq_of_lt ha]
  refine ⟨fun h => memRead_unmapped (by omega), fun h v rest hp => step_memWrite_inert hp ?_⟩
  rw [hn]
  omega

end Sys2Proof.Machine

/-! ## Scope: the encoding

A command byte is its two fields, and the decoder reads from a byte the command whose byte it is (R50-R54). -/

namespace Sys2Proof.Machine

/-! ### The fields of a byte -/

/-- The field `op` counts sixteens (R50). -/
theorem commandByte_toNat (op arg : BitVec 4) : (commandByte op arg).toNat = 16 * op.toNat + arg.toNat := by
  rw [commandByte, BitVec.toNat_append, ← Nat.shiftLeft_add_eq_or_of_lt arg.isLt, Nat.shiftLeft_eq]
  omega

theorem commandByte_inj {op op' arg arg' : BitVec 4} :
    commandByte op arg = commandByte op' arg' ↔ op = op' ∧ arg = arg' := by
  constructor
  · intro h
    have hn := congrArg BitVec.toNat h
    simp only [commandByte_toNat] at hn
    constructor <;> apply BitVec.eq_of_toNat_eq <;> omega
  · rintro ⟨rfl, rfl⟩
    rfl

@[simp] theorem commandByte_fields (c : Byte) : commandByte (opField c) (argField c) = c :=
  (BitVec.extractLsb'_append_extractLsb'_eq_extractLsb' (by rfl)).trans BitVec.extractLsb'_eq_self

theorem commandByte_eq_iff {c : Byte} {op arg : BitVec 4} :
    commandByte op arg = c ↔ opField c = op ∧ argField c = arg := by
  rw [eq_comm, ← commandByte_inj, commandByte_fields]

/-- A mask of two fields acts on each. -/
theorem and_commandByte (c : Byte) (m n : BitVec 4) :
    c &&& commandByte m n = commandByte (opField c &&& m) (argField c &&& n) := by
  conv_lhs => rw [← commandByte_fields c]
  exact BitVec.and_append

/-- The low mask leaves the number of the field `arg` (R51). -/
theorem and_lowMask_toNat (c : Byte) : (c &&& 0x0F).toNat = (argField c).toNat := by
  have h : c &&& 0x0F = commandByte (opField c &&& 0) (argField c &&& 0xF) := and_commandByte c 0 0xF
  have hn : argField c &&& 0xF = argField c := BitVec.and_allOnes
  rw [h, hn, commandByte_toNat]
  simp

/-- The high mask compares the field `op` (R52). -/
theorem and_highMask_iff (c : Byte) (op : BitVec 4) : c &&& 0xF0 = commandByte op 0 ↔ opField c = op := by
  have h : c &&& 0xF0 = commandByte (opField c &&& 0xF) (argField c &&& 0) := and_commandByte c 0xF 0
  have hm : opField c &&& 0xF = opField c := BitVec.and_allOnes
  rw [h, hm, commandByte_inj]
  simp

/-- The field `arg` is a legal operand of ARK: "All sixteen values are legal encodings" (R51). -/
theorem ark_argField_wellFormed (c : Byte) : (Instr.ark (argField c).toNat).wellFormed = true :=
  decide_eq_true (Nat.le_of_lt_succ (argField c).isLt)

theorem encode_ark_argField (c : Byte) : encode (.ark (argField c).toNat) = commandByte 2 (argField c) := by
  rw [encode, BitVec.ofNat_toNat, BitVec.setWidth_eq]

/-! ### What a byte decodes to -/

/-- Everything the decoder can read: a well-formed command from that command's byte, or nothing (R53, R54). -/
theorem decode_cases (c : Byte) :
    (∃ i, decode c = .ok i ∧ i.wellFormed = true ∧ encode i = c) ∨ decode c = .error (.reserved c) := by
  generalize hd : decode c = d
  simp only [decode] at hd
  split_ifs at hd with h1 h2 h3 h4 h5 h6 h7 h8 h9 h10 <;> subst hd
  · exact .inl ⟨_, rfl, rfl, commandByte_eq_iff.2 h1⟩
  · exact .inl ⟨_, rfl, ark_argField_wellFormed c, (encode_ark_argField c).trans (commandByte_eq_iff.2 ⟨h2, rfl⟩)⟩
  · exact .inl ⟨_, rfl, rfl, commandByte_eq_iff.2 h3⟩
  · exact .inl ⟨_, rfl, rfl, commandByte_eq_iff.2 h4⟩
  · exact .inl ⟨_, rfl, rfl, commandByte_eq_iff.2 h5⟩
  · exact .inl ⟨_, rfl, rfl, commandByte_eq_iff.2 h6⟩
  · exact .inl ⟨_, rfl, rfl, commandByte_eq_iff.2 h7⟩
  · exact .inl ⟨_, rfl, rfl, commandByte_eq_iff.2 h8⟩
  · exact .inl ⟨_, rfl, rfl, commandByte_eq_iff.2 h9⟩
  · exact .inl ⟨_, rfl, rfl, commandByte_eq_iff.2 h10⟩
  · exact .inr rfl

theorem decode_eq_ok_iff {c : Byte} {i : Instr} : decode c = .ok i ↔ i.wellFormed = true ∧ encode i = c := by
  constructor
  · intro h
    obtain ⟨j, hj, hw, he⟩ | hr := decode_cases c
    · cases hj.symm.trans h
      exact ⟨hw, he⟩
    · cases hr.symm.trans h
  · rintro ⟨hw, rfl⟩
    exact decode_encode hw

/-- A byte is reserved when it is the byte of no command (R53). -/
theorem decode_eq_reserved_iff {c : Byte} :
    decode c = .error (.reserved c) ↔ ¬ ∃ i : Instr, i.wellFormed = true ∧ encode i = c := by
  simp only [← decode_eq_ok_iff]
  constructor
  · rintro hr ⟨i, hi⟩
    cases hr.symm.trans hi
  · intro h
    obtain ⟨i, hi, -⟩ | hr := decode_cases c
    · exact absurd ⟨i, hi⟩ h
    · exact hr

/-- A row of the opcode table whose mask is the whole byte (R52). -/
theorem decode_eq_ok_iff_mask {i : Instr} (hw : i.wellFormed = true) (c : Byte) :
    decode c = .ok i ↔ c &&& 0xFF = encode i := by
  have hc : c &&& 0xFF = c := BitVec.and_allOnes
  rw [decode_eq_ok_iff, hc]
  exact ⟨fun h => h.2.symm, fun h => ⟨hw, h.symm⟩⟩

/-- The row of ARK, whose mask leaves the operand out (R51, R52). -/
theorem decode_eq_ark_iff_mask (c : Byte) :
    decode c = .ok (.ark (c &&& 0x0F).toNat) ↔ c &&& 0xF0 = commandByte 2 0 := by
  rw [and_lowMask_toNat, and_highMask_iff, decode_eq_ok_iff, encode_ark_argField, commandByte_eq_iff]
  simp [ark_argField_wellFormed]

/-! ### The bytes of the commands, as numbers -/

theorem encode_ark_toNat {r : Nat} (h : r ≤ 15) : (encode (.ark r)).toNat = 0x20 + r := by
  rw [encode, commandByte_toNat, BitVec.toNat_ofNat, Nat.mod_eq_of_lt (by omega)]
  rfl

/-- The rows of the opcode table, by number (R52). -/
theorem exists_encode_iff {c : Byte} :
    (∃ i : Instr, i.wellFormed = true ∧ encode i = c) ↔
      c.toNat = 0x10 ∨ (0x20 ≤ c.toNat ∧ c.toNat ≤ 0x2F) ∨ c.toNat = 0x30 ∨ c.toNat = 0x31 ∨ c.toNat = 0x40 ∨
        c.toNat = 0x41 ∨ c.toNat = 0x50 ∨ c.toNat = 0x51 ∨ c.toNat = 0x60 ∨ c.toNat = 0x70 := by
  constructor
  · rintro ⟨i, hw, rfl⟩
    cases i with
    | ark r =>
      have hr : r ≤ 15 := of_decide_eq_true hw
      have := encode_ark_toNat hr
      omega
    | kexp | subbytes | invsubbytes | shiftrows | invshiftrows | mixcolumns | invmixcolumns | enc | dec => decide
  · rintro (h | ⟨h1, h2⟩ | h | h | h | h | h | h | h | h)
    · exact ⟨.kexp, rfl, BitVec.eq_of_toNat_eq h.symm⟩
    · have hr : c.toNat - 0x20 ≤ 15 := by omega
      refine ⟨.ark (c.toNat - 0x20), decide_eq_true hr, BitVec.eq_of_toNat_eq ?_⟩
      rw [encode_ark_toNat hr]
      omega
    · exact ⟨.subbytes, rfl, BitVec.eq_of_toNat_eq h.symm⟩
    · exact ⟨.invsubbytes, rfl, BitVec.eq_of_toNat_eq h.symm⟩
    · exact ⟨.shiftrows, rfl, BitVec.eq_of_toNat_eq h.symm⟩
    · exact ⟨.invshiftrows, rfl, BitVec.eq_of_toNat_eq h.symm⟩
    · exact ⟨.mixcolumns, rfl, BitVec.eq_of_toNat_eq h.symm⟩
    · exact ⟨.invmixcolumns, rfl, BitVec.eq_of_toNat_eq h.symm⟩
    · exact ⟨.enc, rfl, BitVec.eq_of_toNat_eq h.symm⟩
    · exact ⟨.dec, rfl, BitVec.eq_of_toNat_eq h.symm⟩

/-! ### A reserved byte written to `CMD` -/

/-- A recoverable code only shows in `RES` (R147). -/
theorem raise_of_recoverable {e : ResCode} (h : e.fatal = false) (s : State) : raise e s = { s with RES := e } := by
  rw [raise, h, Bool.or_false]

theorem executeCommand_of_reserved {c : Byte} {s : State} (hd : decode c = .error (.reserved c)) (hh : s.HALT = false) :
    executeCommand c s = .next { s with RES := .eIllcmd } := by
  simp [executeCommand, hh, hd, raise_of_recoverable (e := .eIllcmd) rfl]

/-! ### The obligations -/

/-- Settles O1: the decoder reads a command from its own byte only, and reads it there. -/
theorem decodeAndEncodeAgree : Obligations.DecodeAndEncodeAgree :=
  fun _ _ => decode_eq_ok_iff

/-- Settles O2: nine rows compare the whole byte, and the row of ARK its field `op`. -/
theorem opcodeMapByMaskAndMatch : Obligations.OpcodeMapByMaskAndMatch := fun c =>
  ⟨decode_eq_ok_iff_mask rfl c, decode_eq_ark_iff_mask c, decode_eq_ok_iff_mask rfl c, decode_eq_ok_iff_mask rfl c,
    decode_eq_ok_iff_mask rfl c, decode_eq_ok_iff_mask rfl c, decode_eq_ok_iff_mask rfl c, decode_eq_ok_iff_mask rfl c,
    decode_eq_ok_iff_mask rfl c, decode_eq_ok_iff_mask rfl c⟩

/-- Settles O3: the eight ranges are what the rows of the opcode table leave, and E_ILLCMD is recoverable. -/
theorem reservedBytesRaiseIllegalCommand : Obligations.ReservedBytesRaiseIllegalCommand := by
  refine ⟨fun c => ?_, by decide +kernel, fun s c rest hd hh hp => ?_⟩
  · rw [decode_eq_reserved_iff, exists_encode_iff]
    omega
  · rw [step_cmd_write hp, executeCommand_of_reserved (s := { s with pending := rest }) hd hh]

/-- Settles O4: each byte is the encoding of its command. -/
theorem sampleWordsDecode : Obligations.SampleWordsDecode :=
  ⟨decode_encode (i := .kexp) rfl, decode_encode (i := .ark 10) rfl, decode_encode (i := .invsubbytes) rfl,
    decode_encode (i := .shiftrows) rfl, decode_encode (i := .invmixcolumns) rfl, decode_encode (i := .enc) rfl,
    decode_encode (i := .dec) rfl⟩

end Sys2Proof.Machine

/-! ## Scope: the field and its tables

The product by the `i`-th power of two is `i` times `xtime`, on either side; additivity carries what follows from that
to every byte (R65-R74). -/

namespace Sys2Proof.Machine

/-! ### `xtime` on numbers -/

theorem shiftLeft_one_toNat (a : Byte) : (a <<< 1).toNat = (2 * a.toNat) % 256 := by
  rw [BitVec.toNat_shiftLeft, Nat.shiftLeft_eq, Nat.mul_comm, pow_one]

theorem getLsbD_seven (a : Byte) : a.getLsbD 7 = decide (0x80 ≤ a.toNat) :=
  BitVec.msb_eq_decide a

/-! ### Products by powers of two -/

theorem gmulLoop_xtime (n i : Nat) (a b p : Byte) :
    gmulLoop n i (xtime a) b (xtime p) = xtime (gmulLoop n i a b p) := by
  induction n generalizing i a p with
  | zero => rfl
  | succ n ih =>
    simp only [gmulLoop, ← xtime_xor, ← apply_ite xtime, ih]

/-- `xtime` of the first factor is `xtime` of the product. -/
theorem gmul_xtime_left (a b : Byte) : gmul (xtime a) b = xtime (gmul a b) :=
  gmulLoop_xtime 8 0 a b 0

theorem gmul_iterate_xtime_left (i : Nat) (a b : Byte) : gmul (xtime^[i] a) b = xtime^[i] (gmul a b) := by
  induction i with
  | zero => rfl
  | succ i ih => rw [Function.iterate_succ_apply', Function.iterate_succ_apply', gmul_xtime_left, ih]

/-- The second factor `2^i` makes the loop add once, at its step `i`. -/
theorem gmul_twoPow_right (a : Byte) {i : Nat} (h : i < 8) : gmul a (BitVec.twoPow 8 i) = xtime^[i] a := by
  interval_cases i <;> simp [gmul, gmulLoop]

@[simp] theorem gmul_one_right (a : Byte) : gmul a 1 = a :=
  gmul_twoPow_right a (i := 0) (by decide)

@[simp] theorem gmul_zero_right (a : Byte) : gmul a 0 = 0 := by
  have h := gmul_xor_right a 0 0
  rwa [BitVec.xor_self, BitVec.xor_self] at h

@[simp] theorem gmul_one_left (b : Byte) : gmul 1 b = b := by
  refine additive_ext (g := fun b => b) (gmul_xor_right 1) (fun _ _ => rfl) (fun i hi => ?_) b
  rw [gmul_twoPow_right 1 hi]
  interval_cases i <;> decide

/-- No power of two below 256 is reduced. -/
theorem twoPow_eq_iterate_xtime {i : Nat} (h : i < 8) : BitVec.twoPow 8 i = xtime^[i] 1 := by
  rw [← gmul_twoPow_right 1 h, gmul_one_left]

theorem gmul_twoPow_left (b : Byte) {i : Nat} (h : i < 8) : gmul (BitVec.twoPow 8 i) b = xtime^[i] b := by
  rw [twoPow_eq_iterate_xtime h, gmul_iterate_xtime_left, gmul_one_left]

/-! ### The laws of the product (R67) -/

theorem gmul_comm (a b : Byte) : gmul a b = gmul b a :=
  additive_ext (g := fun b => gmul b a) (gmul_xor_right a) (fun x y => gmul_xor_left x y a)
    (fun _ hi => (gmul_twoPow_right a hi).trans (gmul_twoPow_left a hi).symm) b

theorem gmul_iterate_xtime_right (i : Nat) (a b : Byte) : gmul a (xtime^[i] b) = xtime^[i] (gmul a b) := by
  rw [gmul_comm, gmul_iterate_xtime_left, gmul_comm]

theorem gmul_assoc (a b c : Byte) : gmul (gmul a b) c = gmul a (gmul b c) := by
  refine additive_ext (g := fun c => gmul a (gmul b c)) (gmul_xor_right _) (fun x y => ?_) (fun i hi => ?_) c
  · rw [gmul_xor_right, gmul_xor_right]
  · rw [gmul_twoPow_right _ hi, gmul_twoPow_right _ hi, gmul_iterate_xtime_right]

/-! ### The substitution tables (R69-R72) -/

/-- The affine map of R72. -/
def affine (b : Byte) : Byte :=
  b ^^^ b.rotateLeft 1 ^^^ b.rotateLeft 2 ^^^ b.rotateLeft 3 ^^^ b.rotateLeft 4 ^^^ 0x63

/-- The map that undoes `affine`. -/
def affineInverse (y : Byte) : Byte := y.rotateLeft 1 ^^^ y.rotateLeft 3 ^^^ y.rotateLeft 6 ^^^ 0x05

theorem affine_affineInverse : ∀ y : Byte, affine (affineInverse y) = y := by decide +kernel

/-- What the affine map is applied to, read back from `SBOX`, is the inverse in the field. -/
theorem gmul_affineInverse_sbox : ∀ x : Byte, x ≠ 0 → gmul x (affineInverse (sbox x)) = 1 := by decide +kernel

theorem invSbox_sbox : Function.LeftInverse invSbox sbox := by
  unfold Function.LeftInverse; decide +kernel

theorem sbox_invSbox : Function.LeftInverse sbox invSbox :=
  invSbox_sbox.rightInverse_of_surjective (Finite.surjective_of_injective invSbox_sbox.injective)

theorem sbox_ne_self_and_ne_complement : ∀ x : Byte, sbox x ≠ x ∧ sbox x ≠ x ^^^ 0xFF := by decide +kernel

/-! ### The round constants (R73) -/

theorem rcon_of_legal {j : Nat} (h1 : 1 ≤ j) (h2 : j ≤ 10) : rcon j = rconTable.getD (j - 1) 0 :=
  if_pos ⟨h1, h2⟩

theorem rcon_succ {j : Nat} (h1 : 1 ≤ j) (h2 : j < 10) : rcon (j + 1) = xtime (rcon j) := by
  rw [rcon_of_legal h1 h2.le, rcon_of_legal (Nat.le_add_left 1 j) h2]
  interval_cases j <;> decide

/-! ### The obligations -/

/-- Settles O5: on a power of two both sides of each law are the same number of `xtime`s. -/
theorem fieldProductLaws : Obligations.FieldProductLaws := fun a b c =>
  ⟨gmul_comm a b, gmul_assoc a b c, gmul_xor_right a b c, gmul_one_right a, gmul_zero_right a⟩

/-- Settles O6: each constant is the XOR of its powers of two. -/
theorem matrixProductsFromXtime : Obligations.MatrixProductsFromXtime := by
  intro x x2 x4 x8
  have h1 : gmul 1 x = x := gmul_one_left x
  have h2 : gmul 2 x = x2 := gmul_twoPow_left x (i := 1) (by decide)
  have h4 : gmul 4 x = x4 := gmul_twoPow_left x (i := 2) (by decide)
  have h8 : gmul 8 x = x8 := gmul_twoPow_left x (i := 3) (by decide)
  refine ⟨h1, h2, ?_, ?_, ?_, ?_, ?_⟩
  · rw [show (3 : Byte) = 2 ^^^ 1 from rfl, gmul_xor_left, h2, h1]
  · rw [show (9 : Byte) = 8 ^^^ 1 from rfl, gmul_xor_left, h8, h1]
  · rw [show (11 : Byte) = 8 ^^^ 2 ^^^ 1 from rfl, gmul_xor_left, gmul_xor_left, h8, h2, h1]
  · rw [show (13 : Byte) = 8 ^^^ 4 ^^^ 1 from rfl, gmul_xor_left, gmul_xor_left, h8, h4, h1]
  · rw [show (14 : Byte) = 8 ^^^ 4 ^^^ 2 from rfl, gmul_xor_left, gmul_xor_left, h8, h4, h2]

/-- Settles O7: the shift doubles, and bit 7 is set from 0x80 on. -/
theorem xtimeDoublesAndReduces : Obligations.XtimeDoublesAndReduces := by
  intro a
  rw [← shiftLeft_one_toNat, xtime, getLsbD_seven]
  refine ⟨fun h => ?_, fun h => ?_⟩
  · rw [decide_eq_false h.not_ge]
    rfl
  · rw [decide_eq_true h]
    exact BitVec.toNat_xor _ _

/-- Settles O8: `SBOX` is injective on a finite type, so the inverse on one side is one on the other. -/
theorem sboxesAreInverse : Obligations.SboxesAreInverse := fun x =>
  ⟨invSbox_sbox x, sbox_invSbox x, sbox_ne_self_and_ne_complement x⟩

/-- Settles O9: the byte is read back from `SBOX` through the inverse of the affine map. -/
theorem sboxIsAffineOfInverse : Obligations.SboxIsAffineOfInverse := by
  intro x
  refine ⟨affineInverse (sbox x), ?_, gmul_affineInverse_sbox x, (affine_affineInverse (sbox x)).symm⟩
  rintro rfl
  decide

/-- Settles O10: the last index of the expansion loop, divided by `Nk`, is 10, 8 or 7. -/
theorem roundConstantsArePowers : Obligations.RoundConstantsArePowers := by
  refine ⟨rcon_of_legal (Nat.le_refl 1) (by decide), fun _ => rcon_succ, fun nk i hnk h1 h2 _ => ?_⟩
  simp only [List.mem_cons, List.not_mem_nil, or_false] at hnk
  rcases hnk with rfl | rfl | rfl <;> omega

end Sys2Proof.Machine

/-! ## Scope: key expansion

Each operation on words, byte by byte; the recurrence of the schedule follows from that of its words (R80-R84). -/

namespace Sys2Proof.Machine

/-! ### The operations on words, byte by byte -/

theorem xorBytes_getD {a b : List Byte} (h : a.length = b.length) (k : Nat) :
    (xorBytes a b).getD k 0 = a.getD k 0 ^^^ b.getD k 0 := by
  obtain hk | hk := Nat.lt_or_ge k a.length <;> simp [xorBytes, List.getD, hk, h ▸ hk]

theorem slice_getD (X : List Byte) (a : Nat) {n k : Nat} (hk : k < n) : (slice X a n).getD k 0 = X.getD (a + k) 0 := by
  simp [slice, List.getD, List.getElem?_take_of_lt hk]

theorem subWord_getD {w : List Byte} {k : Nat} (hk : k < w.length) : (subWord w).getD k 0 = sbox (w.getD k 0) := by
  simp [subWord, List.getD, hk]

/-- Byte `k` of `RotWord` is the next byte of the word, around its end (R80). -/
theorem rotWord_getD {w : List Byte} (hw : w.length = 4) {k : Nat} (hk : k < 4) :
    (rotWord w).getD k 0 = w.getD ((k + 1) % 4) 0 := by
  obtain ⟨a, b, c, d, rfl⟩ := List.length_eq_four.1 hw
  interval_cases k <;> rfl

/-- The round constant meets byte 0 only (R74). -/
theorem xorRcon_getD {w : List Byte} (hw : w.length = 4) (j : Nat) {k : Nat} (hk : k < 4) :
    (xorRcon w j).getD k 0 = w.getD k 0 ^^^ (if k = 0 then rcon j else 0) := by
  rw [xorRcon, xorBytes_getD hw]
  interval_cases k <;> rfl

/-! ### The three cases of `temp` (R82) -/

section ScheduleTemp

variable {nk i : Nat} {w : List Byte}

theorem scheduleTemp_getD_of_mod_eq_zero (hi : i % nk = 0) (hw : w.length = 4) {k : Nat} (hk : k < 4) :
    (scheduleTemp nk i w).getD k 0 = sbox (w.getD ((k + 1) % 4) 0) ^^^ (if k = 0 then rcon (i / nk) else 0) := by
  have hr : (rotWord w).length = 4 := by rw [rotWord_length, hw]
  have hs : (subWord (rotWord w)).length = 4 := by rw [subWord, List.length_map, hr]
  rw [scheduleTemp, if_pos hi, xorRcon_getD hs _ hk, subWord_getD (by omega), rotWord_getD hw hk]

theorem scheduleTemp_of_mod_eq_four (hi : i % nk ≠ 0) (h4 : nk > 6 ∧ i % nk = 4) :
    scheduleTemp nk i w = subWord w := by
  rw [scheduleTemp, if_neg hi, if_pos h4]

theorem scheduleTemp_of_other (hi : i % nk ≠ 0) (h4 : ¬ (nk > 6 ∧ i % nk = 4)) : scheduleTemp nk i w = w := by
  rw [scheduleTemp, if_neg hi, if_neg h4]

end ScheduleTemp

/-! ### The bytes of the schedule -/

/-- Word `i` of the schedule of `key`. -/
def scheduleWord (key : List Byte) (i : Nat) : List Byte := (scheduleWords (key.length / 4) key).getD i []

section Schedule

variable {nk : Nat} {key : List Byte} (h0 : 0 < nk) (hk : key.length = 4 * nk)
include h0 hk

/-- The schedule's words at the indices that R82 counts: how many there are, the key's, and the recurrence. -/
theorem scheduleWord_spec :
    (∀ i, i < 4 * (nk + 6 + 1) → (scheduleWord key i).length = 4) ∧
    (∀ i, i < nk → scheduleWord key i = slice key (4 * i) 4) ∧
    ∀ i, nk ≤ i → i < 4 * (nk + 6 + 1) →
      scheduleWord key i = xorBytes (scheduleWord key (i - nk)) (scheduleTemp nk i (scheduleWord key (i - 1))) := by
  have e : key.length / 4 = nk := by omega
  obtain ⟨hwords, hlen, hkey, hrec⟩ := scheduleWords_spec h0 hk
  unfold scheduleWord
  rw [e]
  exact ⟨fun i hi => getD_word_length hwords (by omega), hkey, fun i h1 h2 => hrec i h1 (by omega)⟩

/-- Byte `k` of word `i` is byte `4i + k` of the schedule (R37). -/
theorem expand_getD (i : Nat) {k : Nat} (hk4 : k < 4) :
    (expand key).getD (4 * i + k) 0 = (scheduleWord key i).getD k 0 := by
  have e : key.length / 4 = nk := by omega
  obtain ⟨hwords, -⟩ := scheduleWords_spec h0 hk
  rw [expand, scheduleWord, e, flatten_words_getD hwords i k hk4]

theorem expand_length_eq : (expand key).length = 16 * (nk + 6 + 1) := by
  rw [expand_length h0 hk]
  omega

theorem expand_getD_of_lt {i k : Nat} (hi : i < nk) (hk4 : k < 4) :
    (expand key).getD (4 * i + k) 0 = key.getD (4 * i + k) 0 := by
  obtain ⟨-, hkey, -⟩ := scheduleWord_spec h0 hk
  rw [expand_getD h0 hk i hk4, hkey i hi, slice_getD key _ hk4]

/-- One turn of the loop of R82, on byte `k`. -/
theorem expand_getD_of_le {i k : Nat} (h1 : nk ≤ i) (h2 : i < 4 * (nk + 6 + 1)) (hk4 : k < 4) :
    (expand key).getD (4 * i + k) 0 =
      (expand key).getD (4 * (i - nk) + k) 0 ^^^ (scheduleTemp nk i (scheduleWord key (i - 1))).getD k 0 := by
  obtain ⟨hlen, -, hrec⟩ := scheduleWord_spec h0 hk
  have hl : (scheduleWord key (i - nk)).length = (scheduleTemp nk i (scheduleWord key (i - 1))).length := by
    rw [hlen _ (by omega), scheduleTemp_length (hlen _ (by omega))]
  rw [expand_getD h0 hk i hk4, hrec i h1 h2, xorBytes_getD hl, expand_getD h0 hk _ hk4]

end Schedule

/-! ### KEXP -/

/-- What a key expansion leaves in `RK` and `SRND` (R84, R124, R125). -/
theorem expandKey_scheduleWritten {s : State} (hRK : s.RK.spans rkBase rkBytes) (hk : keyLegal s.KLEN = true) :
    Claims.ScheduleWritten s (expandKey s) :=
  ⟨expandKey_SRND_toNat hk, expandKey_load hRK hk, fun _ => expandKey_outside hk⟩

theorem exec_kexp_of_keyLegal {s : State} (hh : s.HALT = false) (hk : keyLegal s.KLEN = true) :
    exec .kexp s = .next (succeed (expandKey s)) := by
  rw [exec_eq_command]
  exact command_succeeds hh ((firstCause_kexp s).trans (if_pos hk))

theorem exec_kexp_of_not_keyLegal {s : State} (hh : s.HALT = false) (hk : ¬ keyLegal s.KLEN = true) :
    exec .kexp s = .next { s with RES := .eKeysize } := by
  rw [exec_eq_command, ← raise_of_recoverable (e := .eKeysize) rfl]
  exact command_raises hh ((firstCause_kexp s).trans (if_neg hk))

/-! ### The obligations -/

/-- Settles O11: each case of `temp` on byte `k`, put into one turn of the loop. -/
theorem expandFollowsTheRecurrence : Obligations.ExpandFollowsTheRecurrence := by
  intro key nk hnk hk w
  have h0 : 0 < nk := by
    simp only [List.mem_cons, List.not_mem_nil, or_false] at hnk
    omega
  obtain ⟨hlen, -⟩ := scheduleWord_spec h0 hk
  refine ⟨expand_length_eq h0 hk, fun i k hk4 => ⟨fun hi => expand_getD_of_lt h0 hk hi hk4, fun h1 h2 => ?_⟩⟩
  have hturn : w i k = w (i - nk) k ^^^ (scheduleTemp nk i (scheduleWord key (i - 1))).getD k 0 :=
    expand_getD_of_le h0 hk h1 h2 hk4
  have hw : (scheduleWord key (i - 1)).length = 4 := hlen _ (by omega)
  have hprev : ∀ j, j < 4 → w (i - 1) j = (scheduleWord key (i - 1)).getD j 0 := fun _ => expand_getD h0 hk _
  refine ⟨fun hi => ?_, fun hi h4 => ?_, fun hi h4 => ?_⟩
  · rw [hturn, scheduleTemp_getD_of_mod_eq_zero hi hw hk4, hprev _ (Nat.mod_lt _ (by decide))]
  · rw [hturn, scheduleTemp_of_mod_eq_four hi h4, subWord_getD (by omega), hprev k hk4]
  · rw [hturn, scheduleTemp_of_other hi h4, hprev k hk4]

/-- Settles O12: KEXP has one check, and its effect is the key expansion. -/
theorem kexpExpandsTheKeyHeld : Obligations.KexpExpandsTheKeyHeld := by
  refine ⟨decode_encode (i := .kexp) rfl, fun s ⟨_, ⟨_, hRK, _⟩, _⟩ hh => ⟨fun hk => ?_, fun hk => ?_⟩⟩
  · exact exec_kexp_of_not_keyLegal hh (mt (keyLegal_iff s.KLEN).1 hk)
  · have hl : keyLegal s.KLEN = true := (keyLegal_iff s.KLEN).2 hk
    exact ⟨succeed (expandKey s), exec_kexp_of_keyLegal hh hl, rfl, expandKey_scheduleWritten hRK hl⟩

end Sys2Proof.Machine

/-! ## Scope: the round primitives

Each primitive on one block, byte by byte (R95-R104); the seven commands are one rule over the function of a block, and
a command whose function undoes another's undoes the command (R97-R108). -/

namespace Sys2Proof.Machine

/-! ### Blocks, byte by byte -/

/-- Two blocks with the same bytes, by row and column, are equal (R95). -/
theorem block_ext {s t : List Byte} (hs : s.length = 16) (ht : t.length = 16)
    (h : ∀ r c, r < 4 → c < 4 → blockByte s (r + 4 * c) = blockByte t (r + 4 * c)) : s = t := by
  refine List.ext_getElem (hs.trans ht.symm) fun i h1 h2 => ?_
  have hi := h (i % 4) (i / 4) (by omega) (by omega)
  rw [Nat.mod_add_div] at hi
  simpa [blockByte, List.getD, h1, h2] using hi

/-- A block listed by row and column, read by row and column. -/
theorem blockByte_range (f : Nat → Nat → Byte) {r c : Nat} (hr : r < 4) (hc : c < 4) :
    blockByte ((List.range 16).map fun i => f (i % 4) (i / 4)) (r + 4 * c) = f r c := by
  have h : r + 4 * c < 16 := by omega
  have hm : (r + 4 * c) % 4 = r := by omega
  have hd : (r + 4 * c) / 4 = c := by omega
  simp [blockByte, List.getD, h, hm, hd]

theorem blockByte_xorBytes {s t : List Byte} (h : s.length = t.length) (i : Nat) :
    blockByte (xorBytes s t) i = blockByte s i ^^^ blockByte t i :=
  xorBytes_getD h i

theorem blockByte_subBytes (m : Mode) {s : List Byte} {i : Nat} (h : i < s.length) :
    blockByte (subBytes m s) i = subTable m (blockByte s i) := by
  simp [blockByte, subBytes, List.getD, h]

theorem blockByte_shiftRows (m : Mode) (s : List Byte) {r c : Nat} (hr : r < 4) (hc : c < 4) :
    blockByte (shiftRows m s) (r + 4 * c) = blockByte s (r + 4 * shiftSource m r c) :=
  blockByte_range (fun r c => blockByte s (r + 4 * shiftSource m r c)) hr hc

/-! ### AddRoundKey and SubBytes -/

/-- The same round key twice cancels (R108). -/
theorem addRoundKey_addRoundKey {s k : List Byte} (hs : s.length = 16) (hk : k.length = 16) :
    addRoundKey (addRoundKey s k) k = s := by
  refine block_ext (by simp [hs, hk]) hs fun r c _ _ => ?_
  rw [addRoundKey, addRoundKey, blockByte_xorBytes (by simp [hs, hk]), blockByte_xorBytes (hs.trans hk.symm),
    BitVec.xor_assoc, BitVec.xor_self, BitVec.xor_zero]

theorem subBytes_dec_enc (s : List Byte) : subBytes .dec (subBytes .enc s) = s :=
  invSbox_sbox.list_map s

theorem subBytes_enc_dec (s : List Byte) : subBytes .enc (subBytes .dec s) = s :=
  sbox_invSbox.list_map s

/-! ### ShiftRows -/

theorem shiftSource_lt (m : Mode) (r c : Nat) : shiftSource m r c < 4 := by
  cases m <;> exact Nat.mod_lt _ (by decide)

/-- A rotation of the rows is undone by one that takes every column back. -/
theorem shiftRows_undo {m m' : Mode} (h : ∀ r < 4, ∀ c < 4, shiftSource m' r (shiftSource m r c) = c) {s : List Byte}
    (hs : s.length = 16) : shiftRows m (shiftRows m' s) = s := by
  refine block_ext (shiftRows_length m _) hs fun r c hr hc => ?_
  rw [blockByte_shiftRows m _ hr hc, blockByte_shiftRows m' s hr (shiftSource_lt m r c), h r hr c hc]

theorem shiftRows_dec_enc {s : List Byte} (hs : s.length = 16) : shiftRows .dec (shiftRows .enc s) = s :=
  shiftRows_undo (by decide) hs

theorem shiftRows_enc_dec {s : List Byte} (hs : s.length = 16) : shiftRows .enc (shiftRows .dec s) = s :=
  shiftRows_undo (by decide) hs

/-- A substitution byte by byte does not see where the bytes stand (R108). -/
theorem subBytes_shiftRows (m m' : Mode) {s : List Byte} (hs : s.length = 16) :
    subBytes m' (shiftRows m s) = shiftRows m (subBytes m' s) := by
  refine block_ext (by simp) (by simp) fun r c hr hc => ?_
  have hsrc := shiftSource_lt m r c
  rw [blockByte_subBytes m' (by simp; omega), blockByte_shiftRows m s hr hc, blockByte_shiftRows m _ hr hc,
    blockByte_subBytes m' (by omega)]

theorem shiftRows_enc_eq_permuted (s : List Byte) :
    shiftRows .enc s = Claims.permuted [0, 5, 10, 15, 4, 9, 14, 3, 8, 13, 2, 7, 12, 1, 6, 11] s := rfl

theorem shiftRows_dec_eq_permuted (s : List Byte) :
    shiftRows .dec s = Claims.permuted [0, 13, 10, 7, 4, 1, 14, 11, 8, 5, 2, 15, 12, 9, 6, 3] s := rfl

/-! ### MixColumns -/

/-- The product of a row and a column of four bytes over the field (R104). -/
def fieldDot (a x : Nat → Byte) : Byte :=
  gmul (a 0) (x 0) ^^^ gmul (a 1) (x 1) ^^^ gmul (a 2) (x 2) ^^^ gmul (a 3) (x 3)

theorem blockByte_mixColumns (m : Mode) (s : List Byte) {r c : Nat} (hr : r < 4) (hc : c < 4) :
    blockByte (mixColumns m s) (r + 4 * c) = fieldDot (matrixEntry m r) fun k => blockByte s (k + 4 * c) := by
  rw [mixColumns, blockByte_range (mixByte m s) hr hc, mixByte, fieldDot, Nat.zero_add]

theorem fieldDot_congr {a b x y : Nat → Byte} (ha : ∀ k < 4, a k = b k) (hx : ∀ k < 4, x k = y k) :
    fieldDot a x = fieldDot b y := by
  simp [fieldDot, ha, hx]

theorem fieldDot_xor (a x y : Nat → Byte) :
    fieldDot a (fun k => x k ^^^ y k) = fieldDot a x ^^^ fieldDot a y := by
  simp only [fieldDot, gmul_xor_right]
  ac_rfl

/-- A row times a matrix times a column, associated the other way. -/
theorem fieldDot_assoc (a : Nat → Byte) (B : Nat → Nat → Byte) (x : Nat → Byte) :
    fieldDot a (fun k => fieldDot (B k) x) = fieldDot (fun j => fieldDot a fun k => B k j) x := by
  simp only [fieldDot, gmul_xor_right, gmul_xor_left, gmul_assoc]
  ac_rfl

/-- A row of the unit matrix reads one byte of the column. -/
theorem fieldDot_unit {r : Nat} (hr : r < 4) (x : Nat → Byte) :
    fieldDot (fun j => if r = j then 1 else 0) x = x r := by
  have term (j : Nat) : gmul (if r = j then 1 else 0) (x j) = if r = j then x j else 0 := by
    split
    · exact gmul_one_left (x j)
    · exact (gmul_comm 0 (x j)).trans (gmul_zero_right (x j))
  simp only [fieldDot, term]
  interval_cases r <;> simp

/-- A column mix is undone by one whose matrix is a left inverse. -/
theorem mixColumns_undo {m m' : Mode}
    (h : ∀ r < 4, ∀ j < 4, (fieldDot (matrixEntry m r) fun k => matrixEntry m' k j) = if r = j then 1 else 0)
    {s : List Byte} (hs : s.length = 16) : mixColumns m (mixColumns m' s) = s := by
  refine block_ext (mixColumns_length m _) hs fun r c hr hc => ?_
  calc blockByte (mixColumns m (mixColumns m' s)) (r + 4 * c)
      = fieldDot (matrixEntry m r) fun k => blockByte (mixColumns m' s) (k + 4 * c) :=
        blockByte_mixColumns m _ hr hc
    _ = fieldDot (matrixEntry m r) fun k => fieldDot (matrixEntry m' k) fun j => blockByte s (j + 4 * c) :=
        fieldDot_congr (fun _ _ => rfl) fun _ hk => blockByte_mixColumns m' s hk hc
    _ = fieldDot (fun j => fieldDot (matrixEntry m r) fun k => matrixEntry m' k j) fun j => blockByte s (j + 4 * c) :=
        fieldDot_assoc _ _ _
    _ = fieldDot (fun j => if r = j then 1 else 0) fun j => blockByte s (j + 4 * c) :=
        fieldDot_congr (h r hr) fun _ _ => rfl
    _ = blockByte s (r + 4 * c) := fieldDot_unit hr _

theorem mixColumns_dec_enc {s : List Byte} (hs : s.length = 16) : mixColumns .dec (mixColumns .enc s) = s :=
  mixColumns_undo (by decide) hs

theorem mixColumns_enc_dec {s : List Byte} (hs : s.length = 16) : mixColumns .enc (mixColumns .dec s) = s :=
  mixColumns_undo (by decide) hs

/-- MixColumns is linear over XOR (R108). -/
theorem mixColumns_xorBytes (m : Mode) {s t : List Byte} (h : s.length = t.length) :
    mixColumns m (xorBytes s t) = xorBytes (mixColumns m s) (mixColumns m t) := by
  refine block_ext (by simp) (by simp) fun r c hr hc => ?_
  rw [blockByte_xorBytes (by simp)]
  simp only [blockByte_mixColumns m _ hr hc, blockByte_xorBytes h, fieldDot_xor]

/-! ### The rule of a primitive command -/

/-- A fatal code shows in `RES` and sets `HALT` (R147). -/
theorem raise_of_fatal {e : ResCode} (h : e.fatal = true) (s : State) :
    raise e s = { s with RES := e, HALT := true } := by
  rw [raise, h, Bool.or_true]

/-- The checks of a primitive command begin with E_LEN and F_ALIGN (R107). -/
theorem checksOf_eq_primChecks_append {i : Instr} (hi : i ∉ [Instr.kexp, .enc, .dec]) :
    ∃ cs, checksOf i = primChecks ++ cs := by
  cases i with
  | kexp | enc | dec => simp at hi
  | ark r => exact ⟨[roundCheck r], rfl⟩
  | subbytes | invsubbytes | shiftrows | invshiftrows | mixcolumns | invmixcolumns => exact ⟨[], rfl⟩

theorem firstCause_append_of_some {cs ds : List (State → Option ResCode)} {s : State} {e : ResCode}
    (h : firstCause cs s = some e) : firstCause (cs ++ ds) s = some e := by
  rw [firstCause, List.findSome?_append]
  exact congrArg (Option.or · _) h

/-- The cause that the checks of R107 find is the cause of every primitive command. -/
theorem exec_primitive_raises {i : Instr} (hi : i ∉ [Instr.kexp, .enc, .dec]) {s : State} {e : ResCode}
    (hh : s.HALT = false) (h : firstCause primChecks s = some e) : exec i s = .next (raise e s) := by
  obtain ⟨cs, hcs⟩ := checksOf_eq_primChecks_append hi
  refine exec_raises hh ?_
  rw [hcs]
  exact firstCause_append_of_some h

theorem exec_primitive_eLen {i : Instr} (hi : i ∉ [Instr.kexp, .enc, .dec]) {s : State} (hh : s.HALT = false)
    (hl : s.dbufBytes < s.LEN.toNat) : exec i s = .next { s with RES := .eLen } := by
  rw [exec_primitive_raises hi hh ((firstCause_prim s).trans (if_pos hl)), raise_of_recoverable rfl]

theorem exec_primitive_fAlign {i : Instr} (hi : i ∉ [Instr.kexp, .enc, .dec]) {s : State} (hh : s.HALT = false)
    (hl : s.LEN.toNat ≤ s.dbufBytes) (ha : s.LEN.toNat % 16 ≠ 0) :
    exec i s = .next { s with RES := .fAlign, HALT := true } := by
  rw [exec_primitive_raises hi hh ((firstCause_prim s).trans ((if_neg hl.not_gt).trans (if_pos ha))),
    raise_of_fatal rfl]

theorem firstCause_prim_eq_none {s : State} (hl : s.LEN.toNat ≤ s.dbufBytes) (ha : s.LEN.toNat % 16 = 0) :
    firstCause primChecks s = none := by
  rw [firstCause_prim, if_neg hl.not_gt, if_neg (not_not.2 ha)]

theorem SRND_eq_zero_iff (s : State) : s.SRND = 0 ↔ s.SRND.toNat = 0 := BitVec.toNat_inj.symm

theorem firstCause_ark_eq_none {s : State} {r : Nat} (hl : s.LEN.toNat ≤ s.dbufBytes) (ha : s.LEN.toNat % 16 = 0)
    (h0 : s.SRND.toNat ≠ 0) (hr : r ≤ s.SRND.toNat) : firstCause (arkChecks r) s = none := by
  have h : ¬ (s.SRND = 0 ∨ r > s.SRND.toNat) := by rw [SRND_eq_zero_iff]; omega
  rw [firstCause_ark, if_neg hl.not_gt, if_neg (not_not.2 ha), if_neg h]

theorem firstCause_ark_eq_fRound {s : State} {r : Nat} (hl : s.LEN.toNat ≤ s.dbufBytes) (ha : s.LEN.toNat % 16 = 0)
    (h : s.SRND.toNat = 0 ∨ s.SRND.toNat < r) : firstCause (arkChecks r) s = some .fRound := by
  rw [← SRND_eq_zero_iff] at h
  rw [firstCause_ark, if_neg hl.not_gt, if_neg (not_not.2 ha), if_pos h]

/-- A command without a cause to report has its effect and leaves `RES` 0 (R54). -/
theorem exec_succeeds {i : Instr} {s : State} (hh : s.HALT = false) (hc : firstCause (checksOf i) s = none) :
    exec i s = .next (succeed (effectOf i s)) := by
  rw [exec_eq_command, command_succeeds hh hc]

theorem onData_blocksBecome {f : List Byte → List Byte} (hf : KeepsBlocks f) {s : State} (hi : s.Inv)
    (hl : s.LEN.toNat ≤ s.dbufBytes) (ha : s.LEN.toNat % 16 = 0) :
    Claims.BlocksBecome f s (succeed (onData f s)) := by
  obtain ⟨-, ⟨-, -, hD⟩, -⟩ := hi
  exact ⟨rfl, fun _ => onData_block hf hD hl ha, fun _ => onData_outside hf ha⟩

/-- A command with the checks of R107 that acts on the blocks of the data obeys the rule of a primitive. -/
theorem primitiveRule_of_effectOf {i : Instr} {f : List Byte → List Byte} (hi : i ∉ [Instr.kexp, .enc, .dec])
    (hc : checksOf i = primChecks) (he : effectOf i = onData f) (hf : KeepsBlocks f) : Claims.PrimitiveRule i f := by
  intro s hinv hh
  refine ⟨exec_primitive_eLen hi hh, exec_primitive_fAlign hi hh, fun hl ha => ?_⟩
  refine ⟨succeed (onData f s), ?_, onData_blocksBecome hf hinv hl ha⟩
  rw [exec_succeeds hh (hc ▸ firstCause_prim_eq_none hl ha), he]

/-! ### A command and the one that undoes it -/

/-- Storing the bytes of another memory over one window restores it, if the two agree elsewhere. -/
theorem store_load_of_read_outside {m m' : Memory} {base n k : Nat} (hm : m.spans base n) (hm' : m'.spans base n)
    (h : ∀ a, base + k ≤ a → m'.read a = m.read a) : m'.store base (m.load base k) = m := by
  refine eq_of_spans_of_read (store_spans hm' _ _) hm fun a h1 h2 => ?_
  obtain hk | hk := Nat.lt_or_ge a (base + k)
  · rw [read_store_inside hm' h1 h2 h1 (by simpa using hk), load_getD _ _ _ _ (by omega), Nat.add_sub_cancel' h1]
  · rw [read_store_outside _ (.inr (by simpa using hk)), h a hk]

/-- On aligned data, a function of a block after the one it undoes restores the buffer (R108). -/
theorem onData_undo {f g : List Byte → List Byte} (hg : KeepsBlocks g)
    (h : ∀ b : List Byte, b.length = 16 → f (g b) = b) {s : State} (hD : s.D.spans dBase s.dbufBytes)
    (hl : s.LEN.toNat ≤ s.dbufBytes) (ha : s.LEN.toNat % 16 = 0) :
    (onData f (onData g s)).D = s.D := by
  have hdata : mapBlocks f ((onData g s).D.load dBase s.LEN.toNat) = s.D.load dBase s.LEN.toNat := by
    rw [onData_load hg hD hl ha]
    exact mapBlocks_undo hg h (by rwa [data_length])
  calc (onData f (onData g s)).D
      = (onData g s).D.store dBase (mapBlocks f ((onData g s).D.load dBase s.LEN.toNat)) := rfl
    _ = (onData g s).D.store dBase (s.D.load dBase s.LEN.toNat) := by rw [hdata]
    _ = s.D := store_load_of_read_outside hD (store_spans hD _ _) fun _ hk => onData_outside hg ha (.inr hk)

/-- No check reads a byte of `D` or `RES` (R142-R146). -/
theorem firstCause_succeed_onData (i : Instr) (f : List Byte → List Byte) (s : State) :
    firstCause (checksOf i) (succeed (onData f s)) = firstCause (checksOf i) s := by
  cases i <;> rfl

/-- Two commands that complete, the second with a function that undoes the first's, restore the state but for `RES`. -/
theorem execAll_undo {i j : Instr} {f g : List Byte → List Byte} {s : State} (hi : s.Inv) (hh : s.HALT = false)
    (hl : s.LEN.toNat ≤ s.dbufBytes) (ha : s.LEN.toNat % 16 = 0) (ci : firstCause (checksOf i) s = none)
    (cj : firstCause (checksOf j) s = none) (ei : effectOf i s = onData g s)
    (ej : effectOf j (succeed (onData g s)) = onData f (succeed (onData g s))) (hg : KeepsBlocks g)
    (h : ∀ b : List Byte, b.length = 16 → f (g b) = b) : Claims.execAll [i, j] s = .next { s with RES := .ok } := by
  obtain ⟨-, ⟨-, -, hD⟩, -⟩ := hi
  have first : exec i s = .next (succeed (onData g s)) := ei ▸ exec_succeeds hh ci
  have second : exec j (succeed (onData g s)) = .next (succeed (onData f (succeed (onData g s)))) :=
    ej ▸ exec_succeeds hh ((firstCause_succeed_onData j g s).trans cj)
  have restored : succeed (onData f (succeed (onData g s))) = { s with RES := .ok } :=
    congrArg (fun d => { s with D := d, RES := .ok }) (onData_undo hg h hD hl ha)
  simp only [Claims.execAll, first, second, restored]

/-! ### The obligations -/

/-- Settles O13: the tables are inverse, and rotations and matrix products are compared byte by byte. -/
theorem primitiveLaws : Obligations.PrimitiveLaws := fun s _ _ hs ht hk m m' =>
  ⟨subBytes_dec_enc s, subBytes_enc_dec s, shiftRows_dec_enc hs, shiftRows_enc_dec hs, mixColumns_dec_enc hs,
    mixColumns_enc_dec hs, addRoundKey_addRoundKey hs hk, subBytes_shiftRows m m' hs,
    mixColumns_xorBytes m (hs.trans ht.symm)⟩

/-- Settles O16: lengths and single blocks, by induction on the number of blocks. -/
theorem mapBlocksActsOnEachBlock : Obligations.MapBlocksActsOnEachBlock := fun f _ hf hB =>
  ⟨mapBlocks_length hf hB, mapBlocks_nil f, fun _ => mapBlocks_block hf hB⟩

/-- Settles O17: a block through `SubBytes` is each of its bytes through the table of the mode. -/
theorem substitutionCommands : Obligations.SubstitutionCommands :=
  ⟨decode_encode (i := .subbytes) rfl, decode_encode (i := .invsubbytes) rfl,
    primitiveRule_of_effectOf (by decide) rfl rfl (subBytes_keeps .enc),
    primitiveRule_of_effectOf (by decide) rfl rfl (subBytes_keeps .dec)⟩

/-- Settles O18: the source indices of R101 are those of the rotations. -/
theorem rowShiftCommands : Obligations.RowShiftCommands := by
  refine ⟨decode_encode (i := .shiftrows) rfl, decode_encode (i := .invshiftrows) rfl, ?_, ?_⟩
  · rw [← funext shiftRows_enc_eq_permuted]
    exact primitiveRule_of_effectOf (by decide) rfl rfl (shiftRows_keeps .enc)
  · rw [← funext shiftRows_dec_eq_permuted]
    exact primitiveRule_of_effectOf (by decide) rfl rfl (shiftRows_keeps .dec)

/-- Settles O19: MixColumns keeps blocks in both modes. -/
theorem columnMixCommands : Obligations.ColumnMixCommands :=
  ⟨decode_encode (i := .mixcolumns) rfl, decode_encode (i := .invmixcolumns) rfl,
    primitiveRule_of_effectOf (by decide) rfl rfl (mixColumns_keeps .enc),
    primitiveRule_of_effectOf (by decide) rfl rfl (mixColumns_keeps .dec)⟩

/-- Settles O20: the checks of R107 and the round check are disjoint; the round key is read before any block changes. -/
theorem addRoundKeyCommand : Obligations.AddRoundKeyCommand := by
  refine ⟨fun r hr => ?_, fun s r hi hh => ?_⟩
  · have hr : r ≤ 15 := by omega
    refine decode_eq_ok_iff.2 ⟨decide_eq_true hr, BitVec.eq_of_toNat_eq ?_⟩
    rw [encode_ark_toNat hr, BitVec.toNat_ofNat, Nat.mod_eq_of_lt (by omega)]
  · have hprim : Instr.ark r ∉ [Instr.kexp, .enc, .dec] := by simp
    refine ⟨exec_primitive_eLen hprim hh, exec_primitive_fAlign hprim hh, fun hl ha h => ?_, fun hl ha h0 hr => ?_⟩
    · rw [exec_raises (i := .ark r) hh (firstCause_ark_eq_fRound hl ha h), raise_of_fatal rfl]
    · exact ⟨_, exec_succeeds (i := .ark r) hh (firstCause_ark_eq_none hl ha h0 hr),
        onData_blocksBecome (addRoundKey_keeps (roundKey_length s r)) hi hl ha⟩

/-- Settles O21: the function of each second command undoes that of the first, block by block. -/
theorem primitiveCommandsUndoEachOther : Obligations.PrimitiveCommandsUndoEachOther := by
  intro s r hi hh hl ha h0 hr p hp
  have cp : firstCause primChecks s = none := firstCause_prim_eq_none hl ha
  have ca : firstCause (arkChecks r) s = none := firstCause_ark_eq_none hl ha h0 hr
  simp only [Claims.undoPairs, List.mem_cons, List.not_mem_nil, or_false] at hp
  obtain rfl | rfl | rfl | rfl | rfl | rfl | rfl := hp
  · have hk := roundKey_length s r
    exact execAll_undo hi hh hl ha ca ca rfl rfl (addRoundKey_keeps hk) fun _ hb => addRoundKey_addRoundKey hb hk
  · exact execAll_undo hi hh hl ha cp cp rfl rfl (subBytes_keeps .enc) fun b _ => subBytes_dec_enc b
  · exact execAll_undo hi hh hl ha cp cp rfl rfl (subBytes_keeps .dec) fun b _ => subBytes_enc_dec b
  · exact execAll_undo hi hh hl ha cp cp rfl rfl (shiftRows_keeps .enc) fun _ => shiftRows_dec_enc
  · exact execAll_undo hi hh hl ha cp cp rfl rfl (shiftRows_keeps .dec) fun _ => shiftRows_enc_dec
  · exact execAll_undo hi hh hl ha cp cp rfl rfl (mixColumns_keeps .enc) fun _ => mixColumns_dec_enc
  · exact execAll_undo hi hh hl ha cp cp rfl rfl (mixColumns_keeps .dec) fun _ => mixColumns_enc_dec

/-- Settles O22: no legal `SRND` reaches 15, so the clause of ARK in which it completes is never met. -/
theorem arkFifteenNeverCompletes : Obligations.ArkFifteenNeverCompletes := by
  intro s hi hh
  obtain ⟨eLen, fAlign, fRound, -⟩ := addRoundKeyCommand.2 s 15 hi hh
  have hr : s.SRND.toNat < 15 := by
    obtain ⟨-, -, h | h | h | h, -⟩ := hi <;> simp [h]
  obtain hl | hl := Nat.lt_or_ge s.dbufBytes s.LEN.toNat
  · exact ⟨_, eLen hl, by simp, rfl, fun h => absurd h hl.not_ge⟩
  · by_cases ha : s.LEN.toNat % 16 = 0
    · exact ⟨_, fRound hl ha (.inr hr), by simp, rfl, fun _ => rfl⟩
    · exact ⟨_, fAlign hl ha, by simp, rfl, fun _ => rfl⟩

/-- Settles O14: the two source tables are the rotations, written out. -/
theorem shiftRowsRotatesRows : Obligations.ShiftRowsRotatesRows := fun s _ =>
  ⟨fun _ _ hr hc => ⟨blockByte_shiftRows .enc s hr hc, blockByte_shiftRows .dec s hr hc⟩,
    shiftRows_enc_eq_permuted s, shiftRows_dec_eq_permuted s⟩

/-- Settles O15: row `r` of each matrix, with the products by 1 left out. -/
theorem mixColumnsEquations : Obligations.MixColumnsEquations := by
  intro s _
  refine ⟨mixColumns_length .enc s, mixColumns_length .dec s, fun c hc => ?_⟩
  intro a e d
  have byte (m : Mode) (r : Nat) (hr : r < 4) :
      (mixColumns m s).getD (4 * c + r) 0 = fieldDot (matrixEntry m r) a := by
    rw [Nat.add_comm]
    exact blockByte_mixColumns m s hr hc
  have he : ∀ r < 4, e r = fieldDot (matrixEntry .enc r) a := byte .enc
  have hd : ∀ r < 4, d r = fieldDot (matrixEntry .dec r) a := byte .dec
  have one : ∀ b, gmul 1#8 b = b := gmul_one_left
  simp [he, hd, fieldDot, matrixEntry, matrixRow0, one]

end Sys2Proof.Machine

/-! ## Scope: the pipeline

Encrypt and Decrypt are built of functions mapped over the blocks (R120-R123), so that they undo each other and work
block by block; ENC and DEC run them on the padded data (R124-R127), as the primitive commands do on aligned data. -/

namespace Sys2Proof.Machine

/-! ### Pad -/

/-- `Pad` adds no byte to whole blocks (R120). -/
theorem pad_of_aligned {B : List Byte} (h : B.length % 16 = 0) : pad B = B := by
  rw [pad, ceil16_of_aligned h, Nat.sub_self, List.replicate_zero, List.append_nil]

theorem pad_length_mod (B : List Byte) : (pad B).length % 16 = 0 := by
  rw [pad_length]
  exact ceil16_mod _

/-- The bytes that `Pad` adds are those that a byte sequence reads as beyond its end. -/
theorem pad_getD (B : List Byte) (i : Nat) : (pad B).getD i 0 = B.getD i 0 := by
  obtain hi | hi := Nat.lt_or_ge i B.length
  · simp [pad, List.getD, List.getElem?_append_left hi]
  · rw [pad, List.getD_append_right _ _ _ _ hi, List.getD_eq_default B _ hi, List.getD, List.getElem?_replicate]
    split <;> rfl

/-- A block of the padded sequence is fixed by the bytes of the sequence that stand in it. -/
theorem pad_block_congr {B C : List Byte} (hl : C.length = B.length) {b : Nat} (hb : 16 * b < B.length)
    (h : ∀ j, 16 * b ≤ j → j < 16 * b + 16 → j < B.length → C.getD j 0 = B.getD j 0) :
    slice (pad C) (16 * b) 16 = slice (pad B) (16 * b) 16 := by
  have hlen (X : List Byte) (hX : X.length = B.length) : (slice (pad X) (16 * b) 16).length = 16 := by
    have h1 := pad_length_mod X
    have h2 := le_ceil16 X.length
    rw [← pad_length] at h2
    simp only [slice, List.length_take, List.length_drop]
    omega
  refine block_ext (hlen C hl) (hlen B rfl) fun r c hr hc => ?_
  rw [blockByte, blockByte, slice_getD _ _ (by omega), slice_getD _ _ (by omega), pad_getD, pad_getD]
  obtain hj | hj := Nat.lt_or_ge (16 * b + (r + 4 * c)) B.length
  · exact h _ (by omega) (by omega) hj
  · rw [List.getD_eq_default _ _ hj, List.getD_eq_default _ _ (by omega)]

/-- Zero bytes up to the least multiple of 16 that is not below the length are those of `Pad` (R120). -/
theorem append_replicate_eq_pad {B : List Byte} {n p : Nat} (hB : B.length = n) (hp : p % 16 = 0) (h1 : n ≤ p)
    (h2 : p < n + 16) : B ++ List.replicate (p - n) 0x00 = pad B := by
  have hc : ceil16 B.length = p := by
    unfold ceil16
    omega
  rw [pad, hc, hB]

/-! ### Functions mapped over the blocks -/

/-- On aligned buffers, `g` maps one function over the blocks (R95). -/
def ActsOnBlocks (g : List Byte → List Byte) : Prop :=
  ∃ f, KeepsBlocks f ∧ ∀ B : List Byte, B.length % 16 = 0 → g B = mapBlocks f B

namespace ActsOnBlocks

variable {g h : List Byte → List Byte}

theorem of_mapBlocks {f : List Byte → List Byte} (hf : KeepsBlocks f) : ActsOnBlocks (mapBlocks f) :=
  ⟨f, hf, fun _ _ => rfl⟩

theorem id : ActsOnBlocks fun B => B :=
  ⟨fun b => b, fun _ hb => hb, fun _ hB => (mapBlocks_id (fun _ _ => rfl) hB).symm⟩

theorem comp (hg : ActsOnBlocks g) (hh : ActsOnBlocks h) : ActsOnBlocks fun B => g (h B) := by
  obtain ⟨f, hf, eg⟩ := hg
  obtain ⟨k, hk, eh⟩ := hh
  refine ⟨fun b => f (k b), fun b hb => hf _ (hk b hb), fun B hB => ?_⟩
  change g (h B) = mapBlocks (fun b => f (k b)) B
  rw [eh B hB, eg _ (by rwa [mapBlocks_length hk hB]), mapBlocks_comp hk hB]

theorem foldl {f : List Byte → Nat → List Byte} : ∀ {l : List Nat}, (∀ r ∈ l, ActsOnBlocks fun B => f B r) →
    ActsOnBlocks (l.foldl f)
  | [], _ => id
  | r :: l, hl => (foldl fun q hq => hl q (.tail r hq)).comp (hl r (.head l))

end ActsOnBlocks

/-! ### Functions that undo each other -/

/-- `f` and `g` keep buffers aligned, and undo each other on them (R108). -/
def UndoEachOther (f g : List Byte → List Byte) : Prop :=
  ∀ B : List Byte, B.length % 16 = 0 →
    ((f B).length % 16 = 0 ∧ g (f B) = B) ∧ ((g B).length % 16 = 0 ∧ f (g B) = B)

namespace UndoEachOther

theorem of_mapBlocks {f g : List Byte → List Byte} (hf : KeepsBlocks f) (hg : KeepsBlocks g)
    (hgf : ∀ b : List Byte, b.length = 16 → g (f b) = b) (hfg : ∀ b : List Byte, b.length = 16 → f (g b) = b) :
    UndoEachOther (mapBlocks f) (mapBlocks g) := fun B hB =>
  ⟨⟨by rwa [mapBlocks_length hf hB], mapBlocks_undo hf hgf hB⟩,
    ⟨by rwa [mapBlocks_length hg hB], mapBlocks_undo hg hfg hB⟩⟩

theorem id : UndoEachOther (fun B => B) fun B => B := fun _ hB => ⟨⟨hB, rfl⟩, ⟨hB, rfl⟩⟩

/-- What is undone in the reverse order. -/
theorem comp {f g f' g' : List Byte → List Byte} (h : UndoEachOther f g) (h' : UndoEachOther f' g') :
    UndoEachOther (fun B => f (f' B)) fun B => g' (g B) := by
  intro B hB
  obtain ⟨⟨hf', e1⟩, -⟩ := h' B hB
  obtain ⟨⟨hf, e2⟩, -⟩ := h _ hf'
  obtain ⟨-, hg, e3⟩ := h B hB
  obtain ⟨-, hg', e4⟩ := h' _ hg
  exact ⟨⟨hf, (congrArg g' e2).trans e1⟩, ⟨hg', (congrArg f e4).trans e3⟩⟩

theorem foldl {f g : List Byte → Nat → List Byte} : ∀ {l : List Nat},
    (∀ r ∈ l, UndoEachOther (fun B => f B r) fun B => g B r) → UndoEachOther (l.foldl f) (l.reverse.foldl g)
  | [], _ => id
  | r :: l, hl => by
    have hlast : (r :: l).reverse.foldl g = fun B => g (l.reverse.foldl g B) r :=
      funext fun B => by rw [List.reverse_cons, List.foldl_append]; rfl
    rw [hlast]
    exact (foldl fun q hq => hl q (.tail r hq)).comp (hl r (.head l))

theorem subBytes : UndoEachOther (mapBlocks (subBytes .enc)) (mapBlocks (subBytes .dec)) :=
  of_mapBlocks (subBytes_keeps .enc) (subBytes_keeps .dec) (fun b _ => subBytes_dec_enc b) fun b _ => subBytes_enc_dec b

theorem shiftRows : UndoEachOther (mapBlocks (shiftRows .enc)) (mapBlocks (shiftRows .dec)) :=
  of_mapBlocks (shiftRows_keeps .enc) (shiftRows_keeps .dec) (fun _ => shiftRows_dec_enc) fun _ => shiftRows_enc_dec

theorem mixColumns : UndoEachOther (mapBlocks (mixColumns .enc)) (mapBlocks (mixColumns .dec)) :=
  of_mapBlocks (mixColumns_keeps .enc) (mixColumns_keeps .dec) (fun _ => mixColumns_dec_enc) fun _ => mixColumns_enc_dec

end UndoEachOther

/-! ### Encrypt and Decrypt -/

section Ciphers

variable {schedule : List Byte} {nr : Nat} (hs : schedule.length = scheduleBytes nr)
include hs

theorem addRound_actsOnBlocks {r : Nat} (hr : r ≤ nr) : ActsOnBlocks fun B => addRound schedule B r :=
  .of_mapBlocks (addRoundKey_keeps (scheduleKey_length hs hr))

theorem encryptRound_actsOnBlocks {r : Nat} (hr : r ≤ nr) : ActsOnBlocks fun B => encryptRound schedule B r :=
  (addRound_actsOnBlocks hs hr).comp <| (ActsOnBlocks.of_mapBlocks (mixColumns_keeps .enc)).comp <|
    (ActsOnBlocks.of_mapBlocks (shiftRows_keeps .enc)).comp (.of_mapBlocks (subBytes_keeps .enc))

theorem decryptRound_actsOnBlocks {r : Nat} (hr : r ≤ nr) : ActsOnBlocks fun B => decryptRound schedule B r :=
  (ActsOnBlocks.of_mapBlocks (subBytes_keeps .dec)).comp <| (ActsOnBlocks.of_mapBlocks (shiftRows_keeps .dec)).comp <|
    (ActsOnBlocks.of_mapBlocks (mixColumns_keeps .dec)).comp (addRound_actsOnBlocks hs hr)

theorem encrypt_actsOnBlocks : ActsOnBlocks fun B => encrypt B schedule nr := by
  have rounds : ActsOnBlocks ((List.range' 1 (nr - 1)).foldl (encryptRound schedule)) := .foldl fun r hr =>
    encryptRound_actsOnBlocks hs (by rw [List.mem_range'_1] at hr; omega)
  exact (addRound_actsOnBlocks hs le_rfl).comp <| (ActsOnBlocks.of_mapBlocks (shiftRows_keeps .enc)).comp <|
    (ActsOnBlocks.of_mapBlocks (subBytes_keeps .enc)).comp <| rounds.comp (addRound_actsOnBlocks hs nr.zero_le)

theorem decrypt_actsOnBlocks : ActsOnBlocks fun B => decrypt B schedule nr := by
  have rounds : ActsOnBlocks ((List.range' 1 (nr - 1)).reverse.foldl (decryptRound schedule)) := .foldl fun r hr =>
    decryptRound_actsOnBlocks hs (by rw [List.mem_reverse, List.mem_range'_1] at hr; omega)
  exact (addRound_actsOnBlocks hs nr.zero_le).comp <| rounds.comp <|
    (ActsOnBlocks.of_mapBlocks (subBytes_keeps .dec)).comp <|
    (ActsOnBlocks.of_mapBlocks (shiftRows_keeps .dec)).comp (addRound_actsOnBlocks hs le_rfl)

theorem addRound_undoEachOther {r : Nat} (hr : r ≤ nr) :
    UndoEachOther (fun B => addRound schedule B r) fun B => addRound schedule B r := by
  have hk := scheduleKey_length hs hr
  have undo (b : List Byte) (hb : b.length = 16) :
      addRoundKey (addRoundKey b (scheduleKey schedule r)) (scheduleKey schedule r) = b := addRoundKey_addRoundKey hb hk
  exact .of_mapBlocks (addRoundKey_keeps hk) (addRoundKey_keeps hk) undo undo

/-- A full round of decryption is a full round of encryption, undone step by step (R123). -/
theorem rounds_undoEachOther {r : Nat} (hr : r ≤ nr) :
    UndoEachOther (fun B => encryptRound schedule B r) fun B => decryptRound schedule B r :=
  (addRound_undoEachOther hs hr).comp <| UndoEachOther.mixColumns.comp <| UndoEachOther.shiftRows.comp .subBytes

theorem encrypt_decrypt_undoEachOther :
    UndoEachOther (fun B => encrypt B schedule nr) fun B => decrypt B schedule nr := by
  have rounds : UndoEachOther ((List.range' 1 (nr - 1)).foldl (encryptRound schedule))
      ((List.range' 1 (nr - 1)).reverse.foldl (decryptRound schedule)) :=
    .foldl fun r hr => rounds_undoEachOther hs (by rw [List.mem_range'_1] at hr; omega)
  exact (addRound_undoEachOther hs le_rfl).comp <| UndoEachOther.shiftRows.comp <| UndoEachOther.subBytes.comp <|
    rounds.comp (addRound_undoEachOther hs nr.zero_le)

end Ciphers

/-! ### The rounds one by one -/

/-- The buffer of Encrypt after round `r` (R122). -/
def encryptBuffer (X schedule : List Byte) (r : Nat) : List Byte :=
  (List.range' 1 r).foldl (encryptRound schedule) (addRound schedule X 0)

theorem encryptBuffer_succ (X schedule : List Byte) (r : Nat) :
    encryptBuffer X schedule (r + 1) = encryptRound schedule (encryptBuffer X schedule r) (r + 1) := by
  rw [encryptBuffer, List.range'_1_concat, List.foldl_append, Nat.add_comm 1 r]
  rfl

/-- The buffer of Decrypt when the round keys above `r` have been used (R123). -/
def decryptBuffer (X schedule : List Byte) (nr r : Nat) : List Byte :=
  (List.range' (r + 1) (nr - 1 - r)).reverse.foldl (decryptRound schedule)
    (mapBlocks (subBytes .dec) (mapBlocks (shiftRows .dec) (addRound schedule X nr)))

theorem decryptBuffer_of_succ_lt (X schedule : List Byte) {nr r : Nat} (h : r + 1 < nr) :
    decryptBuffer X schedule nr r = decryptRound schedule (decryptBuffer X schedule nr (r + 1)) (r + 1) := by
  rw [decryptBuffer, show nr - 1 - r = nr - 1 - (r + 1) + 1 by omega, List.range'_succ, List.reverse_cons,
    List.foldl_append]
  rfl

theorem decryptBuffer_last (X schedule : List Byte) (nr : Nat) :
    decryptBuffer X schedule nr (nr - 1) =
      mapBlocks (subBytes .dec) (mapBlocks (shiftRows .dec) (addRound schedule X nr)) := by
  rw [decryptBuffer, Nat.sub_self]
  rfl

/-! ### What ENC and DEC do -/

/-- `cipher` maps one function over the blocks, given a schedule of the right length. -/
abbrev CipherActsOnBlocks (cipher : List Byte → List Byte → Nat → List Byte) : Prop :=
  ∀ {schedule : List Byte} {nr : Nat}, schedule.length = scheduleBytes nr → ActsOnBlocks fun B => cipher B schedule nr

/-- ENC and DEC have the checks of a pipeline and run one cipher each (R124, R125). -/
theorem pipeline_cipher {i : Instr} (hi : i ∈ [Instr.enc, .dec]) :
    checksOf i = pipelineChecks ∧
      ∃ g, effectOf i = cipherEffect g ∧ KeepsBuffers g ∧ CipherActsOnBlocks g := by
  simp only [List.mem_cons, List.not_mem_nil, or_false] at hi
  obtain rfl | rfl := hi
  · exact ⟨rfl, encrypt, rfl, encrypt_length, encrypt_actsOnBlocks⟩
  · exact ⟨rfl, decrypt, rfl, decrypt_length, decrypt_actsOnBlocks⟩

theorem firstCause_pipeline_eq_none {s : State} (hk : keyLegal s.KLEN = true) (hl : s.LEN.toNat ≤ s.dbufBytes) :
    firstCause pipelineChecks s = none := by
  rw [firstCause_pipeline, if_pos hk, if_neg hl.not_gt]

@[simp] theorem effectOf_HALT (i : Instr) (s : State) : (effectOf i s).HALT = s.HALT := by
  cases i <;> rfl

/-- KEXP, ENC and DEC check the key length and the data length only (R84, R124, R125). -/
theorem firstCause_of_mem {i : Instr} (hi : i ∈ [Instr.kexp, .enc, .dec]) {s : State} {e : ResCode}
    (h : firstCause (checksOf i) s = some e) : e = .eKeysize ∨ e = .eLen := by
  have hsub : checksOf i ⊆ [keyCheck, lenCheck] := by
    simp only [List.mem_cons, List.not_mem_nil, or_false] at hi
    obtain rfl | rfl | rfl := hi <;> simp [checksOf, kexpChecks, pipelineChecks]
  obtain ⟨c, hc, he⟩ := List.exists_of_findSome?_eq_some h
  obtain rfl | rfl := List.mem_pair.1 (hsub hc)
  · left
    simpa [keyCheck, eq_comm] using (Option.ite_none_left_eq_some.1 he).2
  · right
    simpa [lenCheck, eq_comm] using (Option.ite_none_right_eq_some.1 he).2

/-- What a command does to the schedule is a matter of `SRND` and `RK` alone. -/
theorem scheduleWritten_congr {s t u : State} (hS : u.SRND = t.SRND) (hR : u.RK = t.RK)
    (h : Claims.ScheduleWritten s t) : Claims.ScheduleWritten s u := by
  rw [Claims.ScheduleWritten, hS, hR]
  exact h

/-- A pipeline checks the key length first, then the data length; it has its effect when both are legal. -/
theorem pipelineRule_of_effectOf {i : Instr} {g : List Byte → List Byte → Nat → List Byte}
    (hc : checksOf i = pipelineChecks) (he : effectOf i = cipherEffect g) (hg : KeepsBuffers g) :
    Claims.PipelineRule i g := by
  rintro s ⟨hcfg, ⟨-, hRK, hD⟩, -, -⟩ hh
  refine ⟨fun hk => ?_, fun hk hl => ?_, fun hk hl => ?_⟩
  · have hk := mt (keyLegal_iff s.KLEN).1 hk
    rw [exec_raises hh (by rw [hc, firstCause_pipeline, if_neg hk]), raise_of_recoverable rfl]
  · have hk := (keyLegal_iff s.KLEN).2 hk
    rw [exec_raises hh (by rw [hc, firstCause_pipeline, if_pos hk, if_pos hl]), raise_of_recoverable rfl]
  · have hk := (keyLegal_iff s.KLEN).2 hk
    have hrun : exec i s = .next (succeed (cipherEffect g s)) :=
      he ▸ exec_succeeds hh (hc ▸ firstCause_pipeline_eq_none hk hl)
    have hload := cipherEffect_load hg hD hRK hk hl
    rw [pad, data_length] at hload
    exact ⟨_, ceil16 s.LEN.toNat, hrun, rfl, ceil16_mod _, le_ceil16 _, ceil16_lt _, padData_LEN_toNat hcfg hl,
      scheduleWritten_congr (t := expandKey s) rfl rfl (expandKey_scheduleWritten hRK hk), hload,
      fun _ => cipherEffect_outside hg hD hRK hk hl⟩

theorem pipelineRule_of_mem {i : Instr} (hi : i ∈ [Instr.enc, .dec]) :
    ∃ g, CipherActsOnBlocks g ∧ Claims.PipelineRule i g := by
  obtain ⟨hc, g, he, hkeeps, hblocks⟩ := pipeline_cipher hi
  exact ⟨g, hblocks, pipelineRule_of_effectOf hc he hkeeps⟩

/-- A block of what a pipeline leaves is the block function of its cipher at the same block of the padded data. -/
theorem block_of_pipelineRule {i : Instr} {g : List Byte → List Byte → Nat → List Byte} (rule : Claims.PipelineRule i g)
    {s t : State} (hi : s.Inv) (hh : s.HALT = false) (hk : Claims.KeyLengthLegal s) (hl : s.LEN.toNat ≤ s.dbufBytes)
    (ht : exec i s = .next t) {f : List Byte → List Byte} (hf : KeepsBlocks f)
    (hgf : ∀ B : List Byte, B.length % 16 = 0 →
      g B (expand (s.K.load kBase s.KLEN.toNat)) (s.KLEN.toNat / 4 + 6) = mapBlocks f B)
    {b : Nat} (hb : 16 * b < s.LEN.toNat) :
    Claims.block t b = f (slice (pad (s.D.load dBase s.LEN.toNat)) (16 * b) 16) := by
  obtain ⟨-, -, completes⟩ := rule s hi hh
  obtain ⟨t', p, ht', -, hp, h1, h2, -, -, hload, -⟩ := completes hk hl
  cases ht.symm.trans ht'
  have ha := pad_length_mod (s.D.load dBase s.LEN.toNat)
  have hlen : s.LEN.toNat ≤ (pad (s.D.load dBase s.LEN.toNat)).length := by
    simpa [pad_length] using le_ceil16 s.LEN.toNat
  rw [append_replicate_eq_pad (load_length _ _ _) hp h1 h2, hgf _ ha] at hload
  rw [Claims.block, ← take_drop_load _ (show 16 * b + 16 ≤ p by omega), hload, mapBlocks_block hf ha (by omega), slice]

/-! ### Memories -/

/-- Two memories over one window that agree in its first bytes and elsewhere are the same. -/
theorem eq_of_load_of_read_outside {m m' : Memory} {base n k : Nat} (hm : m.spans base n) (hm' : m'.spans base n)
    (hload : m.load base k = m'.load base k) (h : ∀ a, base + k ≤ a → m.read a = m'.read a) : m = m' := by
  refine eq_of_spans_of_read hm hm' fun a h1 _ => ?_
  obtain hk | hk := Nat.lt_or_ge a (base + k)
  · exact read_eq_of_load_eq hload h1 hk
  · exact h a hk

theorem store_store (m : Memory) (base : Nat) {bs cs : List Byte} (h : cs.length = bs.length) :
    (m.store base bs).store base cs = m.store base cs := by
  rw [store_eq_map, store_eq_map, store_eq_map, List.map_map]
  refine List.map_congr_left fun c _ => ?_
  by_cases hb : base ≤ c.1
  · obtain hc | hc := Nat.lt_or_ge (c.1 - base) cs.length
    · simp [hb, List.getD, hc]
    · simp [hb, List.getD, hc, h ▸ hc]
  · simp [hb]

/-! ### A pipeline as primitive commands -/

theorem padData_of_aligned {s : State} (ha : s.LEN.toNat % 16 = 0) : padData s = s := by
  simp [padData, ceil16_of_aligned ha, store_nil]

theorem execAll_append {is js : List Instr} {s t : State} (h : Claims.execAll is s = .next t) :
    Claims.execAll (is ++ js) s = Claims.execAll js t := by
  induction is generalizing s with
  | nil => cases h; rfl
  | cons i is ih =>
    obtain ⟨u, hu⟩ := exec_next i s
    simp only [Claims.execAll, List.cons_append, hu] at h ⊢
    exact ih h

/-- A legal state that is not halted, with a legal key length and whole blocks of data that the buffer holds: of all
commands only ARK can have a cause to report. -/
structure ReadyForBlocks (s : State) : Prop where
  inv : s.Inv
  running : s.HALT = false
  keyLegal : keyLegal s.KLEN = true
  fits : s.LEN.toNat ≤ s.dbufBytes
  aligned : s.LEN.toNat % 16 = 0

/-- What a run of primitive commands holds: the schedule of the key of `s`, and the bytes `B` for its data. -/
def keyed (s : State) (B : List Byte) : State := succeed { expandKey s with D := s.D.store dBase B }

/-- On every buffer of the length of the data, the commands of the list run as `f` does. -/
def RunsAs (s : State) (is : List Instr) (f : List Byte → List Byte) : Prop :=
  ∀ B : List Byte, B.length = s.LEN.toNat →
    (f B).length = s.LEN.toNat ∧ Claims.execAll is (keyed s B) = .next (keyed s (f B))

namespace RunsAs

variable {s : State}

theorem nil : RunsAs s [] fun B => B := fun _ hB => ⟨hB, rfl⟩

theorem append {is js : List Instr} {f g : List Byte → List Byte} (h : RunsAs s is f) (h' : RunsAs s js g) :
    RunsAs s (is ++ js) fun B => g (f B) := by
  intro B hB
  obtain ⟨hf, ef⟩ := h B hB
  obtain ⟨hg, eg⟩ := h' _ hf
  exact ⟨hg, (execAll_append ef).trans eg⟩

theorem foldl {is : Nat → List Instr} {f : List Byte → Nat → List Byte} : ∀ {l : List Nat},
    (∀ r ∈ l, RunsAs s (is r) fun B => f B r) → RunsAs s (l.flatMap is) (l.foldl f)
  | [], _ => nil
  | r :: l, hl => by
    rw [List.flatMap_cons]
    exact (hl r (.head l)).append (foldl fun q hq => hl q (.tail r hq))

end RunsAs

section ByHand

variable {s : State} (hs : ReadyForBlocks s)
include hs

/-- A command without a cause to report that maps `f` over the blocks runs as `f` mapped over the blocks. -/
theorem runsAs_mapBlocks {i : Instr} {f : List Byte → List Byte} (hf : KeepsBlocks f)
    (hc : ∀ B, firstCause (checksOf i) (keyed s B) = none) (he : ∀ B, effectOf i (keyed s B) = onData f (keyed s B)) :
    RunsAs s [i] (mapBlocks f) := by
  intro B hB
  obtain ⟨-, ⟨-, -, hD⟩, -⟩ := hs.inv
  have hlen : (mapBlocks f B).length = B.length := mapBlocks_length hf (hB ▸ hs.aligned)
  have hdata : data (keyed s B) s.LEN.toNat = B := by
    rw [← hB]
    exact load_store_same hD le_rfl (by have := hs.fits; omega)
  have hrun : exec i (keyed s B) = .next (succeed (onData f (keyed s B))) := he B ▸ exec_succeeds hs.running (hc B)
  have hstore : succeed (onData f (keyed s B)) = keyed s (mapBlocks f B) := by
    have h : (onData f (keyed s B)).D = s.D.store dBase (mapBlocks f B) := by
      calc (onData f (keyed s B)).D
          = (s.D.store dBase B).store dBase (mapBlocks f (data (keyed s B) s.LEN.toNat)) := rfl
        _ = s.D.store dBase (mapBlocks f B) := by rw [hdata, store_store _ _ hlen]
    exact congrArg (fun d => succeed { expandKey s with D := d }) h
  exact ⟨hlen.trans hB, by simp only [Claims.execAll, hrun, hstore]⟩

theorem runsAs_primitive {i : Instr} {f : List Byte → List Byte} (hf : KeepsBlocks f) (hc : checksOf i = primChecks)
    (he : effectOf i = onData f) : RunsAs s [i] (mapBlocks f) :=
  runsAs_mapBlocks hs hf (fun _ => hc ▸ firstCause_prim_eq_none hs.fits hs.aligned) fun _ => by rw [he]

/-- The round keys held after KEXP are those of the schedule (R121). -/
theorem roundKey_keyed (B : List Byte) {r : Nat} (hr : r ≤ rounds s) :
    roundKey (keyed s B) r = scheduleKey (expand (key s)) r := by
  obtain ⟨-, ⟨-, hRK, -⟩, -⟩ := hs.inv
  calc roundKey (keyed s B) r
      = (expandKey s).RK.load (rkBase + 16 * r) 16 := rfl
    _ = slice ((expandKey s).RK.load rkBase (scheduleBytes (rounds s))) (16 * r) 16 :=
        (take_drop_load _ (by unfold scheduleBytes; omega)).symm
    _ = scheduleKey (expand (key s)) r := by rw [expandKey_load hRK hs.keyLegal, scheduleKey]

theorem runsAs_ark {r : Nat} (hr : r ≤ rounds s) : RunsAs s [.ark r] fun B => addRound (expand (key s)) B r := by
  have hS (B : List Byte) : (keyed s B).SRND.toNat = rounds s := expandKey_SRND_toNat hs.keyLegal
  refine runsAs_mapBlocks hs (addRoundKey_keeps (scheduleKey_length (expand_key_length hs.keyLegal) hr))
    (fun B => firstCause_ark_eq_none hs.fits hs.aligned ?_ ((hS B).symm ▸ hr)) fun B => ?_
  · rw [hS, rounds]
    omega
  · rw [effectOf, arkEffect, roundKey_keyed hs B hr]

/-- The steps of Encrypt, one command each (R122). -/
theorem runsAs_encrypt :
    RunsAs s ([.ark 0] ++
        ((List.range' 1 (rounds s - 1)).flatMap (fun r => [.subbytes, .shiftrows, .mixcolumns, .ark r]) ++
          [.subbytes, .shiftrows, .ark (rounds s)]))
      fun B => encrypt B (expand (key s)) (rounds s) := by
  have sub := runsAs_primitive hs (i := .subbytes) (subBytes_keeps .enc) rfl rfl
  have shift := runsAs_primitive hs (i := .shiftrows) (shiftRows_keeps .enc) rfl rfl
  have mix := runsAs_primitive hs (i := .mixcolumns) (mixColumns_keeps .enc) rfl rfl
  have ark {r : Nat} (hr : r ≤ rounds s) := runsAs_ark hs hr
  have full : ∀ r ∈ List.range' 1 (rounds s - 1), RunsAs s [.subbytes, .shiftrows, .mixcolumns, .ark r]
      fun B => encryptRound (expand (key s)) B r := fun r hr =>
    sub.append <| shift.append <| mix.append <| ark (by rw [List.mem_range'_1] at hr; omega)
  exact (ark (Nat.zero_le _)).append <| (RunsAs.foldl full).append <| sub.append <| shift.append <| ark le_rfl

/-- The steps of Decrypt, one command each (R123). -/
theorem runsAs_decrypt :
    RunsAs s ([.ark (rounds s), .invshiftrows, .invsubbytes] ++
        ((List.range' 1 (rounds s - 1)).reverse.flatMap
            (fun r => [.ark r, .invmixcolumns, .invshiftrows, .invsubbytes]) ++ [.ark 0]))
      fun B => decrypt B (expand (key s)) (rounds s) := by
  have sub := runsAs_primitive hs (i := .invsubbytes) (subBytes_keeps .dec) rfl rfl
  have shift := runsAs_primitive hs (i := .invshiftrows) (shiftRows_keeps .dec) rfl rfl
  have mix := runsAs_primitive hs (i := .invmixcolumns) (mixColumns_keeps .dec) rfl rfl
  have ark {r : Nat} (hr : r ≤ rounds s) := runsAs_ark hs hr
  have full : ∀ r ∈ (List.range' 1 (rounds s - 1)).reverse,
      RunsAs s [.ark r, .invmixcolumns, .invshiftrows, .invsubbytes]
        fun B => decryptRound (expand (key s)) B r := fun r hr =>
    (ark (by rw [List.mem_reverse, List.mem_range'_1] at hr; omega)).append <| mix.append <| shift.append sub
  exact ((ark le_rfl).append <| shift.append sub).append <| (RunsAs.foldl full).append <| ark (Nat.zero_le _)

theorem succeed_cipherEffect_of_aligned (g : List Byte → List Byte → Nat → List Byte) :
    succeed (cipherEffect g s) = keyed s (g (data s s.LEN.toNat) (expand (key s)) (rounds s)) := by
  obtain ⟨-, ⟨-, hRK, -⟩, -⟩ := hs.inv
  rw [cipherEffect, padData_of_aligned hs.aligned, ceil16_of_aligned hs.aligned, expandKey_load hRK hs.keyLegal]
  rfl

/-- A pipeline leaves the state of KEXP and of commands that run as its cipher does. -/
theorem pipeline_eq_execAll {i : Instr} {g : List Byte → List Byte → Nat → List Byte} {is : List Instr}
    (hc : checksOf i = pipelineChecks) (he : effectOf i = cipherEffect g)
    (hrun : RunsAs s is fun B => g B (expand (key s)) (rounds s)) :
    ∃ t, exec i s = .next t ∧ Claims.execAll (.kexp :: is) s = .next t := by
  have hstart : succeed (expandKey s) = keyed s (data s s.LEN.toNat) := by
    obtain ⟨-, ⟨-, -, hD⟩, -⟩ := hs.inv
    exact congrArg (fun d => succeed { expandKey s with D := d })
      (store_load_of_read_outside hD hD fun _ _ => rfl).symm
  have hnone : firstCause pipelineChecks s = none := firstCause_pipeline_eq_none hs.keyLegal hs.fits
  refine ⟨succeed (cipherEffect g s), he ▸ exec_succeeds hs.running (hc ▸ hnone), ?_⟩
  simp only [Claims.execAll, exec_kexp_of_keyLegal hs.running hs.keyLegal]
  rw [hstart, succeed_cipherEffect_of_aligned hs]
  exact (hrun _ (data_length _ _)).2

end ByHand

/-! ### The obligations -/

/-- Settles O23: `Pad` fills up to `ceil16` of the length. -/
theorem padFillsWithZeros : Obligations.PadFillsWithZeros := fun B =>
  ⟨pad_length_mod B, pad_length B ▸ le_ceil16 _, pad_length B ▸ ceil16_lt _, by rw [pad_length, pad], pad_of_aligned⟩

/-- Settles O24: the buffer after round `r` is the fold of the rounds up to `r`. -/
theorem encryptRoundSequence : Obligations.EncryptRoundSequence := by
  intro X schedule nr _ rk add
  refine ⟨encryptBuffer X schedule, rfl, fun r h1 _ => ?_, rfl⟩
  obtain ⟨r, rfl⟩ := Nat.exists_eq_add_of_le' h1
  exact encryptBuffer_succ X schedule r

/-- Settles O25: the buffer before round `r` is the fold of the rounds above `r`, highest first. -/
theorem decryptRoundSequence : Obligations.DecryptRoundSequence := by
  intro X schedule nr _ rk add
  refine ⟨decryptBuffer X schedule nr, decryptBuffer_last X schedule nr, fun r h1 h2 => ?_, rfl⟩
  obtain ⟨r, rfl⟩ := Nat.exists_eq_add_of_le' h1
  exact decryptBuffer_of_succ_lt X schedule h2

/-- Settles O26: each step of Decrypt undoes a step of Encrypt, in the reverse order. -/
theorem decryptUndoesEncrypt : Obligations.DecryptUndoesEncrypt := fun B _ _ _ hB hs =>
  have ⟨⟨_, hdec⟩, _, henc⟩ := encrypt_decrypt_undoEachOther hs B hB
  ⟨hdec, henc⟩

/-- Settles O27: ENC is a pipeline command that runs Encrypt. -/
theorem encCommand : Obligations.EncCommand :=
  ⟨decode_encode (i := .enc) rfl, pipelineRule_of_effectOf rfl rfl encrypt_length⟩

/-- Settles O28: DEC is a pipeline command that runs Decrypt. -/
theorem decCommand : Obligations.DecCommand :=
  ⟨decode_encode (i := .dec) rfl, pipelineRule_of_effectOf rfl rfl decrypt_length⟩

/-- Settles O29: DEC meets the key and the padded length that ENC has left, and Decrypt undoes Encrypt. -/
theorem encThenDecGivesThePaddedInput : Obligations.EncThenDecGivesThePaddedInput := by
  intro s hi hh hk hl
  obtain ⟨-, -, encCompletes⟩ := encCommand.2 s hi hh
  obtain ⟨t, p, ht, et, hp, h1, h2, htp, -, htload, htout⟩ := encCompletes hk hl
  have hti : t.Inv := inv_kept.exec hi ht
  have hth : t.HALT = false := by rw [et, hh]
  have hK : t.K = s.K := by rw [et]
  have hKLEN : t.KLEN = s.KLEN := by rw [et]
  have hcfg : t.cfg = s.cfg := by rw [et]
  have htl : t.LEN.toNat ≤ t.dbufBytes := by
    unfold State.dbufBytes at *
    rw [hcfg]
    omega
  obtain ⟨-, -, decCompletes⟩ := decCommand.2 t hti hth
  obtain ⟨u, q, hu, eu, hq, h3, h4, huq, -, huload, huout⟩ := decCompletes (by rwa [Claims.KeyLengthLegal, hKLEN]) htl
  obtain rfl : q = p := by omega
  have hschedule : (expand (s.K.load kBase s.KLEN.toNat)).length = scheduleBytes (s.KLEN.toNat / 4 + 6) :=
    expand_key_length ((keyLegal_iff _).2 hk)
  have hload : u.D.load dBase q = pad (s.D.load dBase s.LEN.toNat) := by
    have ha := pad_length_mod (s.D.load dBase s.LEN.toNat)
    rw [huload, htp, Nat.sub_self, List.replicate_zero, List.append_nil, htload, hK, hKLEN,
      append_replicate_eq_pad (load_length _ _ _) hp h1 h2]
    obtain ⟨⟨-, hdec⟩, -⟩ := encrypt_decrypt_undoEachOther hschedule _ ha
    exact hdec
  refine ⟨t, u, ht, hu, by rw [eu], huq ▸ hload, fun ha => ?_⟩
  have hqn : q = s.LEN.toNat := by omega
  refine ⟨BitVec.eq_of_toNat_eq (htp.trans hqn), ?_⟩
  obtain ⟨-, ⟨-, -, hD⟩, -⟩ := hi
  obtain ⟨-, ⟨-, -, huD⟩, -⟩ := inv_kept.exec hti hu
  have hucfg : u.cfg = s.cfg := by rw [eu, hcfg]
  rw [hqn, pad_of_aligned (by rwa [load_length])] at hload
  rw [State.dbufBytes, hucfg] at huD
  exact eq_of_load_of_read_outside huD hD hload fun a h => by
    rw [huout a (.inr (hqn ▸ h)), htout a (.inr (hqn ▸ h))]

/-- Settles O30: both runs map one function of a block, made of the key, over the blocks. -/
theorem outputBlocksAreIndependent : Obligations.OutputBlocksAreIndependent := by
  intro i s s' t t' hi hs hs' hh hh' hKLEN hk hK hLEN hl hl' ht ht' b hb hblock
  obtain ⟨g, hg, rule⟩ := pipelineRule_of_mem hi
  obtain ⟨f, hf, hgf⟩ := hg (expand_key_length ((keyLegal_iff _).2 hk))
  have hK' : s'.K.load kBase s'.KLEN.toNat = s.K.load kBase s.KLEN.toNat := by rw [hKLEN, hK]
  have hslice : slice (pad (s'.D.load dBase s'.LEN.toNat)) (16 * b) 16 =
      slice (pad (s.D.load dBase s.LEN.toNat)) (16 * b) 16 := by
    refine pad_block_congr (by simp [hLEN]) (by simpa using hb) fun j h1 h2 h3 => ?_
    rw [load_length] at h3
    rw [load_getD _ _ _ _ (by rwa [hLEN]), load_getD _ _ _ _ h3, hblock j h1 h2 h3]
  calc Claims.block t' b
      = f (slice (pad (s'.D.load dBase s'.LEN.toNat)) (16 * b) 16) :=
        block_of_pipelineRule rule hs' hh' (by rwa [Claims.KeyLengthLegal, hKLEN]) (by rwa [hLEN]) ht' hf
          (by rw [hK', hKLEN]; exact hgf) (by rwa [hLEN])
    _ = f (slice (pad (s.D.load dBase s.LEN.toNat)) (16 * b) 16) := by rw [hslice]
    _ = Claims.block t b := (block_of_pipelineRule rule hs hh hk hl ht hf hgf hb).symm

/-- Settles O31: each clause of the rule of a pipeline reads what the two states agree in. -/
theorem pipelineIsAPureFunction : Obligations.PipelineIsAPureFunction := by
  intro i s s' hi hs hs' hh hh' hcfg hKLEN hK hLEN hdata
  obtain ⟨g, -, rule⟩ := pipelineRule_of_mem hi
  obtain ⟨badKey, badLen, completes⟩ := rule s hs hh
  obtain ⟨badKey', badLen', completes'⟩ := rule s' hs' hh'
  have hbytes : s'.dbufBytes = s.dbufBytes := by rw [State.dbufBytes, State.dbufBytes, hcfg]
  have hlegal : Claims.KeyLengthLegal s' ↔ Claims.KeyLengthLegal s := by
    rw [Claims.KeyLengthLegal, Claims.KeyLengthLegal, hKLEN]
  by_cases hk : Claims.KeyLengthLegal s
  · obtain hl | hl := Nat.lt_or_ge s.dbufBytes s.LEN.toNat
    · exact ⟨_, _, badLen hk hl, badLen' (hlegal.2 hk) (by rwa [hbytes, hLEN]), rfl, hLEN, hdata⟩
    · obtain ⟨t, p, ht, et, hp, h1, h2, htp, -, hload, -⟩ := completes hk hl
      obtain ⟨t', p', ht', et', hp', h1', h2', htp', -, hload', -⟩ := completes' (hlegal.2 hk) (by rwa [hbytes, hLEN])
      rw [hLEN] at h1' h2'
      obtain rfl : p' = p := by omega
      refine ⟨t, t', ht, ht', by rw [et, et'], BitVec.eq_of_toNat_eq (htp'.trans htp.symm), ?_⟩
      rw [htp, hload, hload', hLEN, hKLEN, hdata, hK]
  · exact ⟨_, _, badKey hk, badKey' (mt hlegal.1 hk), rfl, hLEN, hdata⟩

/-- Settles O32: after KEXP each primitive command is one step of the cipher. -/
theorem pipelineEqualsPrimitiveSequence : Obligations.PipelineEqualsPrimitiveSequence := by
  intro s hi hh hk hl ha
  have hs : ReadyForBlocks s := ⟨hi, hh, (keyLegal_iff s.KLEN).2 hk, hl, ha⟩
  exact ⟨pipeline_eq_execAll hs (i := .enc) rfl rfl (runsAs_encrypt hs),
    pipeline_eq_execAll hs (i := .dec) rfl rfl (runsAs_decrypt hs)⟩

/-- Settles O33: the effects keep `HALT`, and the checks of the three commands raise E_KEYSIZE and E_LEN only. -/
theorem pipelineNeverHalts : Obligations.PipelineNeverHalts := by
  intro i s hi hh
  obtain ⟨t, ht⟩ := exec_next i s
  refine ⟨t, ht, ?_⟩
  obtain ⟨h, -⟩ | ⟨e, -, he, rfl⟩ | ⟨-, hc, rfl⟩ := exec_cases ht
  · rw [hh] at h
    cases h
  · obtain rfl | rfl := firstCause_of_mem hi he <;> simp [hh, ResCode.fatal]
  · simp [hh]

end Sys2Proof.Machine

/-! ## Scope: errors

A command or a byte written to `CMD` reports one code: the first cause that applies, raised, or 0 (R147, R148). -/

namespace Sys2Proof.Machine

/-! ### What a live engine shows after a command -/

/-- The fatal codes by name (R141). -/
theorem ResCode.fatal_eq_decide (e : ResCode) : e.fatal = decide (e = .fAlign ∨ e = .fRound) := by
  cases e <;> rfl

/-- The trap entry of a live engine: `RES`, `HALT` if the code is fatal, and nothing else (R147). -/
theorem raise_of_live {s : State} (hh : s.HALT = false) (e : ResCode) :
    raise e s = { s with RES := e, HALT := decide (e = .fAlign ∨ e = .fRound) } := by
  rw [raise, hh, Bool.false_or, ResCode.fatal_eq_decide]

/-- A command that leaves a code has raised it, for a command that has its effect leaves `RES` 0 (R54). -/
theorem exec_eq_raise_of_RES_ne_ok {i : Instr} {s t : State} (hh : s.HALT = false) (h : exec i s = .next t)
    (hr : t.RES ≠ .ok) : t = raise t.RES s := by
  obtain ⟨hh', -⟩ | ⟨e, -, -, rfl⟩ | ⟨-, -, rfl⟩ := exec_cases h
  · simp [hh] at hh'
  · rfl
  · exact absurd (succeed_RES _) hr

theorem executeCommand_eq_raise_of_RES_ne_ok {c : Byte} {s t : State} (hh : s.HALT = false)
    (h : executeCommand c s = .next t) (hr : t.RES ≠ .ok) : t = raise t.RES s := by
  obtain ⟨i, -, he⟩ | ⟨r, -, rfl⟩ := executeCommand_cases hh h
  · exact exec_eq_raise_of_RES_ne_ok hh he hr
  · rfl

/-- A live engine reports the first cause of the command's checks, or 0, and halts for a fatal one (R148). -/
theorem exec_RES_HALT {i : Instr} {s t : State} (hh : s.HALT = false) (h : exec i s = .next t) :
    t.RES = (firstCause (checksOf i) s).getD .ok ∧ t.HALT = decide (t.RES = .fAlign ∨ t.RES = .fRound) := by
  obtain ⟨hh', -⟩ | ⟨e, -, hc, rfl⟩ | ⟨-, hc, rfl⟩ := exec_cases h
  · simp [hh] at hh'
  · rw [hc, raise_of_live hh]
    exact ⟨rfl, rfl⟩
  · simp [hc, hh]

/-! ### The order of the causes -/

theorem firstToApply_of_reserved {c : Byte} {r : Reject} (hd : decode c = .error r) (s : State) :
    Claims.firstToApply c s = .eIllcmd := by
  rw [Claims.firstToApply, hd]

theorem getD_ite (p : Prop) [Decidable p] (a b : Option ResCode) (e : ResCode) :
    (if p then a else b).getD e = if p then a.getD e else b.getD e :=
  apply_ite (Option.getD · e) p a b

/-- Each command's checks, in their order, are the causes of R148 that concern the command. Without `not_or`, `simp`
turns the test for an illegal key length into the model's test for a legal one. -/
theorem firstToApply_of_decode {c : Byte} {i : Instr} (hd : decode c = .ok i) (s : State) :
    Claims.firstToApply c s = (firstCause (checksOf i) s).getD .ok := by
  cases i with
  | kexp =>
    rw [checksOf, firstCause_kexp]
    simp [Claims.firstToApply, hd, getD_ite, -not_or]
  | ark r =>
    simp only [checksOf, firstCause_ark, SRND_eq_zero_iff]
    simp [Claims.firstToApply, hd, getD_ite, State.dbufBytes]
  | subbytes | invsubbytes | shiftrows | invshiftrows | mixcolumns | invmixcolumns =>
    rw [checksOf, firstCause_prim]
    simp [Claims.firstToApply, hd, getD_ite, State.dbufBytes]
  | enc | dec =>
    rw [checksOf, firstCause_pipeline]
    simp [Claims.firstToApply, hd, getD_ite, State.dbufBytes, -not_or]

/-! ### The obligations -/

/-- Settles O34: the codes other than 0 come from the trap entry alone. -/
theorem errorsArePrecise : Obligations.ErrorsArePrecise := by
  refine ⟨fun i s t hh h hr => ?_, fun c s t rest hh hp h hr => ?_⟩
  · rw [← raise_of_live hh]
    exact exec_eq_raise_of_RES_ne_ok hh h hr
  · have ht : t = raise t.RES { s with pending := rest } :=
      executeCommand_eq_raise_of_RES_ne_ok hh (step_cmd_write hp ▸ h) hr
    exact ht.trans (raise_of_live (s := { s with pending := rest }) hh _)

/-- Settles O35: a reserved byte has the one cause E_ILLCMD, and a command the first that its checks find. -/
theorem firstCauseIsReported : Obligations.FirstCauseIsReported := by
  refine fun s c rest hp => ⟨step_memWrite_halted hp, fun hh => ?_⟩
  rw [step_cmd_write hp]
  obtain ⟨i, hd, -, -⟩ | hd := decode_cases c
  · obtain ⟨t, ht⟩ := exec_next i { s with pending := rest }
    obtain ⟨hres, hhalt⟩ := exec_RES_HALT (s := { s with pending := rest }) hh ht
    refine ⟨t, (executeCommand_of_decode hd _).trans ht, hres.trans ?_, hhalt⟩
    exact (firstToApply_of_decode hd { s with pending := rest }).symm
  · exact ⟨_, executeCommand_of_reserved hd hh, (firstToApply_of_reserved hd s).symm, hh⟩

end Sys2Proof.Machine

/-! ## Scope: reset

A pending Reset runs the Reset event of R165; what that event leaves in the arrays and in the registers a host reads. -/

namespace Sys2Proof.Machine

theorem step_reset {s : State} {rest : List Txn} (hp : s.pending = .reset :: rest) :
    step s = .next (resetEvent { s with pending := rest }) :=
  step_of_pending hp

/-- Whatever the arrays held, a Reset leaves them over exactly their addresses, with no need of the invariant. -/
theorem resetEvent_arraysSpan (s : State) : (resetEvent s).arraysSpan :=
  ⟨fill_spans _ _ _, fill_spans _ _ _, fill_spans _ _ _⟩

/-- `STATUS` is 0x00 in a live engine whose result code is 0 (R17). -/
theorem status_of_ok {s : State} (hres : s.RES = .ok) (hhalt : s.HALT = false) : status s = 0x00 := by
  rw [status, hres, hhalt]
  rfl

/-- Settles O46: the step is the Reset event, whose frame is its definition and whose arrays are filled windows. -/
theorem resetTransactionClears : Obligations.ResetTransactionClears := by
  intro s rest hp
  refine ⟨_, step_reset hp, rfl, resetEvent_arraysSpan _, ?_, ?_⟩
  · rw [memRead_STATUS]
    exact status_of_ok (resetEvent_RES _) (resetEvent_HALT _)
  · rw [memRead_SRND, resetEvent_SRND]

end Sys2Proof.Machine
